-- ==== Sys2Proof/Word.lean ====
section
/-! DEFINITION. The word types of the block: every data element is one byte (rule R51), and a host names an operation by
a 2-bit code (rule R93). -/

namespace Sys2Proof

/-- A byte: bit 0 is its least significant bit (rules R11, R12). -/
abbrev Byte := BitVec 8

/-- The host operation select `OP[1:0]` (rule R93). -/
abbrev OpCode := BitVec 2

end Sys2Proof
end

