-- ==== Sys2Proof/Config.lean ====
section
/-! DEFINITION. What is fixed in the logic, what an implementation chooses, and the one free value (rules R8, R41, R50). -/

namespace Sys2Proof

/-- The four address spaces of rules R41 and R50; an address is a pair (space, index). -/
inductive Space where
  | input   -- `IN`
  | out     -- `OUT`
  | rb      -- `RB`
  | store   -- `STORE`
deriving DecidableEq, Repr

namespace Config

/-- `DELIM`, the frame delimiter marker (rules R8, R190). -/
def delim : Byte := 0x00

/-- `OVH_FULL`, the Overhead value of a full block (rule R8). -/
def ovhFull : Byte := 0xFF

/-- `BLOCK_MAX_DATA`, the most data bytes one block carries (rule R8). -/
def blockMaxData : Nat := 254

/-- `CSUM_INIT`, the start value of the exclusive-or fold (rule R8). -/
def csumInit : Byte := 0x00

/-- The OPEN parameters of rule R8, which the model takes as an argument: State holds them, no step changes them.
`none` reads as unbounded (for the width and the advisory constant: not given).  Log entry 5. -/
structure Params where
  /-- `N_MAX`, the longest Payload of CHECKSUM and ENCODE (decision D5). -/
  nMax : Option Nat
  /-- `FRAME_IN_MAX`, the longest DECODE input (decision D5). -/
  frameInMax : Option Nat
  /-- `W_IDX`, the width of the index registers of a realisation; the model's are naturals (decision D6), so no rule
  reads it. -/
  wIdx : Option Nat
  /-- `MAX_FRAME_SIZE`, advisory only: no rule reads it (rules R39, R196, R204; decision D15). -/
  maxFrameSize : Option Nat
deriving DecidableEq, Repr

/-- Whether an input of `n` bytes is within a capacity (rule R59). -/
def fits (cap : Option Nat) (n : Nat) : Bool :=
  match cap with
  | none => true
  | some m => decide (n ≤ m)

/-- The derived capacity of `OUT` for a Payload capacity (rules R8, R130). -/
def outCapacity (nMax : Nat) : Nat := (nMax + 1) + (nMax + 1) / 254 + 2

/-- The derived capacity of `RB` for a DECODE input capacity (rule R172). -/
def rbCapacity (frameInMax : Nat) : Nat := frameInMax - 1

/-- The derived capacity of `STORE` for a DECODE input capacity (rule R172). -/
def storeCapacity (frameInMax : Nat) : Nat := frameInMax - 2

/-- FREE VALUE (log entry 7): what a byte that nothing has written reads as, the `any value` of entries U2, U4 and U11 of
spec/93_implementation_defined.md.  It has no body, so nothing can be proved of it. -/
opaque unwritten : Space → Nat → Byte

end Config

end Sys2Proof
end

