-- ==== Sys2Proof/Syntax.lean ====
section
/-! DEFINITION. The instructions in the sense of rule R9: four host operations and twelve micro-steps, one constructor
per row of spec/opcode_table.json. -/

namespace Sys2Proof

/-- One constructor per row of the opcode table (rule R96).  A byte argument is the byte matched by the row. -/
inductive Instr where
  /-- CHECKSUM, rule R112. -/
  | checksum
  /-- ENCODE, rule R126. -/
  | encode
  /-- DECODE, rule R150. -/
  | decode
  /-- GETMSG, rule R200. -/
  | getmsg
  /-- OVH.END, rule R152. -/
  | ovhEnd
  /-- OVH.FULL, rule R154. -/
  | ovhFull
  /-- OVH.BLK with its Overhead byte L, rule R153. -/
  | ovhBlk (l : Byte)
  /-- DATA.COPY of the byte b, rule R155. -/
  | dataCopy (b : Byte)
  /-- ENC.ZERO, rule R122. -/
  | encZero
  /-- ENC.DATA of the byte b, block stays open, rule R123. -/
  | encData (b : Byte)
  /-- ENC.DATA of the byte b with full close (row ENC.DATA.FULL), rule R124. -/
  | encDataFull (b : Byte)
  /-- ENC.INIT, rule R121. -/
  | encInit
  /-- ENC.FIN, rule R125. -/
  | encFin
  /-- DEC.INIT, rule R151. -/
  | decInit
  /-- DEC.EOI, rule R156. -/
  | decEoi
  /-- DEC.VALIDATE, rule R168. -/
  | decValidate
deriving DecidableEq, Repr

/-- The `format` of a row: the context in which its pattern is matched (rule R96). -/
inductive Format where
  | hostop
  | overhead
  | data
  | srcbyte
  | implicit
deriving DecidableEq, Repr

/-- The format of each row of the opcode table. -/
def Instr.format : Instr → Format
  | .checksum => .hostop
  | .encode => .hostop
  | .decode => .hostop
  | .getmsg => .hostop
  | .ovhEnd => .overhead
  | .ovhFull => .overhead
  | .ovhBlk _ => .overhead
  | .dataCopy _ => .data
  | .encZero => .srcbyte
  | .encData _ => .srcbyte
  | .encDataFull _ => .srcbyte
  | .encInit => .implicit
  | .encFin => .implicit
  | .decInit => .implicit
  | .decEoi => .implicit
  | .decValidate => .implicit

/-- How many whole bytes an instruction of a format matches: the 2-bit `OP` is held in one byte, an IMPLICIT row matches
none (rule R96; log entry 16). -/
def Format.byteCount : Format → Nat
  | .hostop => 1
  | .overhead => 1
  | .data => 1
  | .srcbyte => 1
  | .implicit => 0

end Sys2Proof
end

