-- ==== Sys2Proof/Machine/State.lean ====
section
/-! DEFINITION. The state of one codec instance as plain data: every element of rules R21 to R36, and beside them the
model's own fields (the parameters, the place inside an operation, the host's program). -/

namespace Sys2Proof.Machine

open Sys2Proof

/-- A byte memory: (index, byte) pairs, indices strictly rising.  An index that is not listed holds no written byte
(log entry 7). -/
abbrev Memory := List Host.Cell

/-- A buffer with its length register (rule R50): the valid indices are `0 .. len - 1`. -/
structure Buffer where
  cells : Memory
  len : Nat
deriving DecidableEq, Repr

/-- The empty buffer. -/
def Buffer.empty : Buffer := ⟨[], 0⟩

/-- MODEL'S OWN FIELD (log entry 4): where the instance stands between operations and between the micro-steps of one. -/
inductive Phase where
  /-- No operation is in progress (rules R230, R241). -/
  | idle
  /-- ENCODE has its checksum byte; ENC.INIT is next (rule R126). -/
  | encInit
  /-- ENCODE scans the Extended Message (rule R126). -/
  | encScan
  /-- DECODE has been issued; DEC.INIT is next (rule R150). -/
  | decInit
  /-- DECODE scans the frame, or has left the scan by OVH.END when `TERM` is 1 (rule R157). -/
  | decScan
  /-- DECODE has left the scan by DEC.EOI (rule R156). -/
  | decDone
deriving DecidableEq, Repr

/-- One item of the host's program (rules R9, R60, R240): an operation with its input buffer, or the RESET event. -/
inductive HostEvent where
  /-- The operation as the one atomic step it is to the host (rules R16, R20). -/
  | issue (op : OpCode) (input : List Byte)
  /-- The same operation taken micro-step by micro-step (decision D1, rule R16; log entry 3). -/
  | issueStepped (op : OpCode) (input : List Byte)
  /-- The RESET event (rule R240). -/
  | reset
deriving DecidableEq, Repr

/-- The two failure causes of rules R210 and R211: ghost data, held by no field of State (rule R212, decision D23). -/
inductive FailCause where
  | emptyOrTruncatedFrame
  | checksumMismatch
deriving DecidableEq, Repr

/-- The state of one codec instance (rule R20). -/
@[ext]
structure State where
  /-- The open parameters of rule R8: no step changes them (log entry 5). -/
  params : Config.Params
  /-- The host operations and events still to come (log entry 1). -/
  host : List HostEvent
  /-- The place inside an operation (log entry 4). -/
  phase : Phase
  /-- `IN`, `IN_LEN`: the argument of the operation (rule R35). -/
  inp : Buffer
  /-- `OUT`, `OUT_LEN`: the output buffer (rule R34). -/
  out : Buffer
  /-- `RB`, `RB_LEN`: the reconstruction buffer (rule R33). -/
  rb : Buffer
  /-- `STORE`, `STORE_LEN`: the Validated Message Store (rule R22). -/
  store : Buffer
  /-- `ACC`: the exclusive-or accumulator (rule R23). -/
  acc : Byte
  /-- `CODE`: the encoder's block counter (rule R24). -/
  code : Byte
  /-- `SLOT`: the index in `OUT` reserved for the open block's Overhead byte (rule R25). -/
  slot : Nat
  /-- `WR`: the next write index in `OUT` (rule R25). -/
  wr : Nat
  /-- `SI`: the scan index of a source sequence (rule R26). -/
  si : Nat
  /-- `CNT`: data bytes still to copy in the decoder's current block (rule R27). -/
  cnt : Byte
  /-- `FIRST`: no block has been opened in this DECODE (rule R28). -/
  first : Bool
  /-- `PREV_FULL`: the block opened last had Overhead 255 (rule R29). -/
  prevFull : Bool
  /-- `TERM`: 0x00 has been read at an Overhead position (rule R30). -/
  term : Bool
  /-- `FI`: the scan index into the frame (rule R31). -/
  fi : Nat
  /-- `OK`: the result of DECODE (rule R36). -/
  ok : Bool
  /-- `RES`: the result of CHECKSUM (rule R36). -/
  res : Byte
deriving DecidableEq, Repr

/-- A step never ends in a fault: "There is no trap, no reserved-encoding fault and no hint encoding" (rule R91) and a
failed DECODE is a next state (rule R219).  So the type has no constructor (log entry 19). -/
inductive Fault where
deriving DecidableEq, Repr

/-- Why a step has no meaning. -/
inductive Refusal where
  /-- Raised by an arm of exec that has no meaning yet.  No arm of this model raises it.  Safe. -/
  | notModelled (mnemonic : String)
  /-- Raised by CHECKSUM, ENCODE and DECODE on an input longer than the instance's capacity: "refused before its first
  micro-step" (rule R59, entry U1).  Safe. -/
  | capacityExceeded
  /-- Raised by the four host operations while another is in progress (rules R62, R214, entry U5).  Safe. -/
  | operationInProgress
  /-- Raised by a micro-step whose "when" does not hold (rules R16, R157); the decoder never selects one.  Safe. -/
  | stepNotEnabled
  /-- Raised by step where the context and the byte under the scan index select no instruction: only with `CODE` at 255
  between two micro-steps, which no run reaches (rule R24).  Safe. -/
  | undecodable
deriving DecidableEq, Repr

/-- The state right after RESET or power-on (rule R43).  The fields that rule R43 does not list (`IN`, the parameters, the
phase, the host's program) are named in log entries 1, 4, 5 and 10. -/
def State.reset : State where
  params := ⟨none, none, none, none⟩
  host := []
  phase := .idle
  inp := Buffer.empty
  out := Buffer.empty
  rb := Buffer.empty
  store := Buffer.empty
  acc := 0x00
  code := 0x01
  slot := 0
  wr := 1
  si := 0
  cnt := 0x00
  first := true
  prevFull := false
  term := false
  fi := 0
  ok := false
  res := 0x00

end Sys2Proof.Machine
end

