-- ==== Sys2Proof/Machine/Ops.lean ====
section
/-! DEFINITION. The shared operations over memory and registers: byte memories, the four buffers, the checksum engine,
the failure of a DECODE and the RESET event. -/

namespace Sys2Proof.Machine

open Sys2Proof

/-! ## Byte memories -/

namespace Memory

/-- The byte written at an index, if one is. -/
def read? : Memory → Nat → Option Byte
  | [], _ => none
  | c :: m, i => if c.1 = i then some c.2 else read? m i

/-- Writes one byte, keeping the indices rising (rule R57). -/
def put : Memory → Nat → Byte → Memory
  | [], i, v => [(i, v)]
  | c :: m, i, v =>
    if i < c.1 then (i, v) :: c :: m
    else if i = c.1 then (i, v) :: m
    else c :: put m i v

/-- Leaves an index without a written byte. -/
def forget (m : Memory) (i : Nat) : Memory := m.filter fun c => c.1 != i

/-- Leaves every index at or beyond `n` without a written byte. -/
def truncate (m : Memory) (n : Nat) : Memory := m.filter fun c => decide (c.1 < n)

/-- A byte sequence laid out from an index on. -/
def ofBytes : Nat → List Byte → Memory
  | _, [] => []
  | i, b :: bs => (i, b) :: ofBytes (i + 1) bs

/-- The canonical form: indices strictly rising.  (An index that is not listed reads as no written byte, so no entry can
equal it.) -/
abbrev wf (m : Memory) : Prop := (m.map Prod.fst).Pairwise (· < ·)

end Memory

/-! ## Buffers -/

namespace Buffer

/-- A buffer that holds a byte sequence. -/
def ofBytes (bs : List Byte) : Buffer := ⟨Memory.ofBytes 0 bs, bs.length⟩

/-- `MemRead(BUF, i)` on one buffer (rule R14); a byte that nothing has written is a free value (log entry 7). -/
def read (sp : Space) (b : Buffer) (i : Nat) : Byte := (Memory.read? b.cells i).getD (Config.unwritten sp i)

/-- `MemWrite(BUF, i, v)` on one buffer (rule R14): the length register is not touched. -/
def write (b : Buffer) (i : Nat) (v : Byte) : Buffer := { b with cells := Memory.put b.cells i v }

/-- Reserves an index: it holds no written byte until it is written (rules R42, R44; entry U11; log entry 8). -/
def reserve (b : Buffer) (i : Nat) : Buffer := { b with cells := Memory.forget b.cells i }

/-- Sets the length register; what lies at or beyond it becomes unspecified (rule R34, entry U4; log entry 8). -/
def setLen (b : Buffer) (n : Nat) : Buffer := ⟨Memory.truncate b.cells n, n⟩

/-- `BUF <- BUF ++ [v]` (rule R14). -/
def append (b : Buffer) (v : Byte) : Buffer := ⟨Memory.put b.cells b.len v, b.len + 1⟩

/-- The first `n` bytes, in index order (rule R55). -/
def firstBytes (sp : Space) (b : Buffer) (n : Nat) : List Byte := (List.range n).map (b.read sp)

/-- Every valid index, and no other, holds a written byte. -/
abbrev full (b : Buffer) : Prop := b.cells.map Prod.fst = List.range b.len

end Buffer

/-! ## The buffers of a state -/

/-- The buffer of an address space (rule R50). -/
def State.buf (s : State) : Space → Buffer
  | .input => s.inp
  | .out => s.out
  | .rb => s.rb
  | .store => s.store

/-- `MemRead(BUF, i)` (rules R14, R56). -/
def memRead (s : State) (sp : Space) (i : Nat) : Byte := (s.buf sp).read sp i

/-- `len(BUF)`: the length register of an address space. -/
def bufLen (s : State) (sp : Space) : Nat := (s.buf sp).len

/-- `BUF[0 .. BUF_LEN-1]` as a byte sequence. -/
def bytesOf (s : State) (sp : Space) : List Byte := (s.buf sp).firstBytes sp (bufLen s sp)

/-! ## The checksum engine (rules R110, R111) -/

/-- `XORFOLD(s)` (rule R111). -/
def xorFold (bs : List Byte) : Byte := bs.foldl (fun acc b => acc ^^^ b) Config.csumInit

/-- One fold step: `ACC <- ACC xor b`, and the scan index moves on (rule R111). -/
def foldStep (s : State) (b : Byte) : State := { s with acc := s.acc ^^^ b, si := s.si + 1 }

/-- The engine run over a byte sequence: it writes `ACC` and `SI` (rule R111). -/
def foldBytes (bs : List Byte) (s : State) : State := bs.foldl foldStep { s with acc := Config.csumInit, si := 0 }

/-! ## The failure of a DECODE and the RESET event -/

/-- `raise DecodeFail(cause)`: what this block has in the place of taking an exception (rules R15, R217).  `OK <- 0`, the
Store keeps its value, nothing is vectored; the cause is observable nowhere (rule R212; log entry 20).  There is no return
from it (rule R218): the instance is ready for the next operation. -/
def raiseDecodeFail (_cause : FailCause) (s : State) : State := { s with ok := false, phase := .idle }

/-- The RESET event between two operations (rules R43, R240).  `IN` is an argument and not state (rule R43), so it stays; so
do the parameters, and the host goes on with the rest of its program (log entry 11). -/
def resetEvent (rest : List HostEvent) (s : State) : State :=
  { State.reset with params := s.params, host := rest, inp := s.inp }

end Sys2Proof.Machine
end

