-- ==== Sys2Proof/Machine/Operands.lean ====
section
/-! DEFINITION. The operands of the operations and micro-steps: the Extended Message under the encoder's scan index, the
frame byte under the decoder's, and what is computed from the Overhead byte (rules R87, R120). -/

namespace Sys2Proof.Machine

open Sys2Proof

/-- `n = len(X) = IN_LEN + 1` (rule R120). -/
def xLen (s : State) : Nat := s.inp.len + 1

/-- `X[SI]` of the virtual Extended Message: `IN[SI]`, or the checksum byte, which stands in `ACC` since the fold of rule
R120 (rules R50, R126; log entry 21). -/
def xByte (s : State) : Byte := if s.si < s.inp.len then memRead s .input s.si else s.acc

/-- `IN[FI]`, the frame byte under the decoder's scan index (rule R31). -/
def frameByte (s : State) : Byte := memRead s .input s.fi

/-- `L - 1`, the number of data bytes that follow the Overhead byte L (rules R27, R87; conflict C1). -/
def dataCount (l : Byte) : Byte := l - 1

/-- The received checksum `r = RB[RB_LEN-1]` (rule R168). -/
def receivedChecksum (s : State) : Byte := memRead s .rb (s.rb.len - 1)

/-- The message `M = RB[0 .. RB_LEN-2]` (rule R168). -/
def receivedMessage (s : State) : List Byte := s.rb.firstBytes .rb (s.rb.len - 1)

/-- The Payload of CHECKSUM and ENCODE fits (rule R59). -/
def payloadFits (s : State) : Bool := Config.fits s.params.nMax s.inp.len

/-- The candidate Frame of DECODE fits (rule R59). -/
def frameFits (s : State) : Bool := Config.fits s.params.frameInMax s.inp.len

end Sys2Proof.Machine
end

