-- ==== Sys2Proof/Machine/Flags.lean ====
section
/-! DEFINITION. The one-bit state `FIRST`, `PREV_FULL`, `TERM` and the tests made on it (rules R28 to R32). -/

namespace Sys2Proof.Machine

open Sys2Proof

/-- The restoration test `FIRST = 0 and PREV_FULL = 0`: a block has been opened before and it was short (rules R153,
R158). -/
def restores (s : State) : Bool := !s.first && !s.prevFull

/-- The appending of one reconstructed Delimiter byte when the restoration test holds (rules R153, R154, R194). -/
def restoreDelim (s : State) : State :=
  if restores s then { s with rb := s.rb.append Config.delim } else s

/-- `PREV_FULL` for the block that an Overhead byte opens: `L = 255` (rule R29). -/
def isFull (l : Byte) : Bool := l == Config.ovhFull

/-- The scan of DECODE goes on: `TERM = 0` and `FI < IN_LEN` (rule R150). -/
def scanRuns (s : State) : Bool := !s.term && decide (s.fi < s.inp.len)

/-- The scan of DECODE has ended, by OVH.END or by DEC.EOI (rules R152, R156, R168). -/
def scanOver (s : State) : Bool := decide (s.phase = .decDone) || (decide (s.phase = .decScan) && s.term)

/-- Whether an operation is in progress (rule R62). -/
def busy (s : State) : Bool := decide (s.phase ≠ .idle)

end Sys2Proof.Machine
end

