-- ==== Sys2Proof/Machine/Checksum.lean ====
section
/-! DEFINITION. The HOSTOP row CHECKSUM (rule R112). -/

namespace Sys2Proof.Machine

open Sys2Proof

/-- The result of a fold is taken into `RES` (rule R112). -/
def takeResult (s : State) : State := { s with res := s.acc }

/-- CHECKSUM: `RES <- XORFOLD(IN[0 .. IN_LEN-1])` (rule R112); refused over capacity (rule R59) and while another operation
is in progress (rule R62). -/
def execChecksum (s : State) : Host.Outcome State Fault Refusal :=
  if busy s then .refused .operationInProgress
  else if payloadFits s then .next (takeResult (foldBytes (bytesOf s .input) s))
  else .refused .capacityExceeded

end Sys2Proof.Machine
end

