-- ==== Sys2Proof/Machine/Decoder.lean ====
section
/-! DEFINITION. The byte-unstuffing decoder: DECODE and its micro-steps (rules R150 to R157, R168 to R171). -/

namespace Sys2Proof.Machine

open Sys2Proof

/-! ## The micro-steps' effects -/

/-- DEC.INIT (rule R151). -/
def decInitEffect (s : State) : State :=
  { s with
    fi := 0, cnt := 0x00, first := true, prevFull := false, term := false,
    rb := Buffer.empty, phase := .decScan }

/-- OVH.END (rule R152): the Delimiter is consumed and the scan stops. -/
def ovhEndEffect (s : State) : State := { s with fi := s.fi + 1, term := true }

/-- What OVH.BLK and OVH.FULL share: restore a Delimiter byte if the old flags say so, then open the block of Overhead
byte `l` (rules R153, R154). -/
def openFrameBlock (l : Byte) (s : State) : State :=
  { restoreDelim s with first := false, prevFull := isFull l, cnt := dataCount l, fi := s.fi + 1 }

/-- OVH.BLK (rule R153). -/
def ovhBlkEffect (l : Byte) (s : State) : State := openFrameBlock l s

/-- OVH.FULL (rule R154). -/
def ovhFullEffect (s : State) : State := openFrameBlock Config.ovhFull s

/-- DATA.COPY (rule R155). -/
def dataCopyEffect (b : Byte) (s : State) : State :=
  { s with rb := s.rb.append b, cnt := s.cnt - 1, fi := s.fi + 1 }

/-- DEC.EOI (rule R156): nothing is written; the scan is over with `TERM = 0`. -/
def decEoiEffect (s : State) : State := { s with phase := .decDone }

/-- The success arm of DEC.VALIDATE (rule R170): the Store is replaced as a whole (rule R58). -/
def acceptMessage (m : List Byte) (s : State) : State :=
  { s with store := Buffer.ofBytes m, ok := true, phase := .idle }

/-- The checksum test of DEC.VALIDATE on a non-empty `RB` (rules R168, R170, R171). -/
def validateNonEmpty (s : State) : State :=
  if (foldBytes (receivedMessage s) s).acc = receivedChecksum s then
    acceptMessage (receivedMessage s) (foldBytes (receivedMessage s) s)
  else raiseDecodeFail .checksumMismatch (foldBytes (receivedMessage s) s)

/-- The cause with which DEC.VALIDATE fails, if it does (rules R168, R210, R211, R216).  Ghost data: no step reads it and no
field of State holds it (rule R212, decision D23; log entry 20). -/
def failCause (s : State) : Option FailCause :=
  if s.rb.len = 0 then some .emptyOrTruncatedFrame
  else if xorFold (receivedMessage s) = receivedChecksum s then none
  else some .checksumMismatch

/-- DEC.VALIDATE (rules R168 to R171): emptiness first, checksum second (rule R216). -/
def decValidateEffect (s : State) : State :=
  if s.rb.len = 0 then raiseDecodeFail .emptyOrTruncatedFrame s else validateNonEmpty s

/-! ## The guarded micro-steps (rule R16) -/

/-- The scan stands at a byte of the frame (rule R157). -/
def atFrameByte (s : State) : Bool := decide (s.phase = .decScan) && scanRuns s

/-- The scan stands at an Overhead position: `CNT = 0` (rules R27, R84). -/
def atOverhead (s : State) : Bool := atFrameByte s && s.cnt == 0x00

/-- The scan stands at a data position: `CNT != 0` (rules R27, R85). -/
def atData (s : State) : Bool := atFrameByte s && s.cnt != 0x00

/-- DEC.INIT: once, at the start of every DECODE (rule R151). -/
def execDecInit (s : State) : Host.Outcome State Fault Refusal :=
  if s.phase = .decInit then .next (decInitEffect s) else .refused .stepNotEnabled

/-- OVH.END: when `CNT = 0`, `FI < IN_LEN` and `IN[FI] = 0x00` (rule R152). -/
def execOvhEnd (s : State) : Host.Outcome State Fault Refusal :=
  if atOverhead s && frameByte s == Config.delim then .next (ovhEndEffect s) else .refused .stepNotEnabled

/-- OVH.BLK: when `CNT = 0`, `FI < IN_LEN` and `L = IN[FI]` is in 0x01..0xFE (rule R153). -/
def execOvhBlk (l : Byte) (s : State) : Host.Outcome State Fault Refusal :=
  if atOverhead s && frameByte s == l && l != Config.delim && l != Config.ovhFull then
    .next (ovhBlkEffect l s)
  else .refused .stepNotEnabled

/-- OVH.FULL: when `CNT = 0`, `FI < IN_LEN` and `IN[FI] = 0xFF` (rule R154). -/
def execOvhFull (s : State) : Host.Outcome State Fault Refusal :=
  if atOverhead s && frameByte s == Config.ovhFull then .next (ovhFullEffect s) else .refused .stepNotEnabled

/-- DATA.COPY: when `CNT != 0` and `FI < IN_LEN`, for the byte `b = IN[FI]` (rule R155). -/
def execDataCopy (b : Byte) (s : State) : Host.Outcome State Fault Refusal :=
  if atData s && frameByte s == b then .next (dataCopyEffect b s) else .refused .stepNotEnabled

/-- DEC.EOI: when `TERM = 0` and `FI = IN_LEN` (rule R156). -/
def execDecEoi (s : State) : Host.Outcome State Fault Refusal :=
  if s.phase = .decScan ∧ s.term = false ∧ s.fi = s.inp.len then .next (decEoiEffect s)
  else .refused .stepNotEnabled

/-- DEC.VALIDATE: once, after the scan has ended by OVH.END or DEC.EOI (rule R168). -/
def execDecValidate (s : State) : Host.Outcome State Fault Refusal :=
  if scanOver s then .next (decValidateEffect s) else .refused .stepNotEnabled

/-! ## The operation -/

/-- DECODE has been accepted; DEC.INIT is next (rule R150). -/
def beginDecode (s : State) : State := { s with phase := .decInit }

/-- The body of DECODE's loop (rule R150). -/
def decByte (s : State) : State :=
  if s.cnt = 0x00 then
    if frameByte s = Config.delim then ovhEndEffect s
    else if frameByte s = Config.ovhFull then ovhFullEffect s
    else ovhBlkEffect (frameByte s) s
  else dataCopyEffect (frameByte s) s

/-- `while TERM = 0 and FI < IN_LEN` (rule R150), at most `fuel` times; `IN_LEN` times is enough (rule R265). -/
def decLoop : Nat → State → State
  | 0, s => s
  | fuel + 1, s => if scanRuns s then decLoop fuel (decByte s) else s

/-- The loop is left by OVH.END, or by DEC.EOI (rule R150). -/
def endScan (s : State) : State := if s.term then s else decEoiEffect s

/-- The whole of DECODE after its capacity check: the composition of the micro-steps (rules R16, R150). -/
def decodeRun (s : State) : State :=
  decValidateEffect (endScan (decLoop s.inp.len (decInitEffect (beginDecode s))))

/-- DECODE (rule R150); refused over capacity (rule R59) and while another operation is in progress (rule R62). -/
def execDecode (s : State) : Host.Outcome State Fault Refusal :=
  if busy s then .refused .operationInProgress
  else if frameFits s then .next (decodeRun s)
  else .refused .capacityExceeded

end Sys2Proof.Machine
end

