-- ==== Sys2Proof/Machine/Encoder.lean ====
section
/-! DEFINITION. The byte-stuffing encoder: ENCODE and its micro-steps (rules R120 to R126). -/

namespace Sys2Proof.Machine

open Sys2Proof

/-! ## The parts the micro-steps share -/

/-- The backpatch: `OUT[SLOT] <- CODE` closes the open block (rules R122, R124, R125). -/
def closeBlock (s : State) : State := { s with out := s.out.write s.slot s.code }

/-- `SLOT <- WR; WR <- WR + 1; CODE <- 1`: the next output position is reserved for the new block's Overhead byte (rules
R122, R124). -/
def openBlock (s : State) : State :=
  { s with out := s.out.reserve s.wr, slot := s.wr, wr := s.wr + 1, code := 0x01 }

/-- `OUT[WR] <- b; WR <- WR + 1; CODE <- CODE + 1` (rules R123, R124). -/
def emitByte (b : Byte) (s : State) : State :=
  { s with out := s.out.write s.wr b, wr := s.wr + 1, code := s.code + 1 }

/-- `SI <- SI + 1`. -/
def advanceSource (s : State) : State := { s with si := s.si + 1 }

/-! ## The micro-steps' effects -/

/-- ENC.INIT (rule R121). -/
def encInitEffect (s : State) : State :=
  { s with out := s.out.reserve 0, slot := 0, wr := 1, code := 0x01, si := 0, phase := .encScan }

/-- ENC.ZERO (rule R122). -/
def encZeroEffect (s : State) : State := advanceSource (openBlock (closeBlock s))

/-- ENC.DATA, block stays open (rule R123). -/
def encDataEffect (b : Byte) (s : State) : State := advanceSource (emitByte b s)

/-- ENC.DATA with full close (rule R124): the byte is appended, then the block is closed and a new one opened. -/
def encDataFullEffect (b : Byte) (s : State) : State :=
  advanceSource (openBlock (closeBlock (emitByte b s)))

/-- ENC.FIN (rule R125): the last block is closed, the Delimiter appended and `OUT_LEN` set. -/
def encFinEffect (s : State) : State :=
  { s with
    out := (((s.out.write s.slot s.code).write s.wr Config.delim).setLen (s.wr + 1)),
    wr := s.wr + 1,
    phase := .idle }

/-! ## The guarded micro-steps (rule R16) -/

/-- The scan of ENCODE stands at a byte of X: `SI < n` (rule R126). -/
def atSourceByte (s : State) : Bool := decide (s.phase = .encScan) && decide (s.si < xLen s)

/-- ENC.INIT: once, before the scan of X (rule R121). -/
def execEncInit (s : State) : Host.Outcome State Fault Refusal :=
  if s.phase = .encInit then .next (encInitEffect s) else .refused .stepNotEnabled

/-- ENC.ZERO: when `X[SI] = 0x00` (rule R122). -/
def execEncZero (s : State) : Host.Outcome State Fault Refusal :=
  if atSourceByte s && xByte s == Config.delim then .next (encZeroEffect s) else .refused .stepNotEnabled

/-- ENC.DATA: when `b = X[SI]` is not 0x00 and `CODE <= 253` (rule R123). -/
def execEncData (b : Byte) (s : State) : Host.Outcome State Fault Refusal :=
  if atSourceByte s && xByte s == b && b != Config.delim && decide (s.code.toNat ≤ 253) then
    .next (encDataEffect b s)
  else .refused .stepNotEnabled

/-- ENC.DATA with full close: when `b = X[SI]` is not 0x00 and `CODE = 254` (rule R124). -/
def execEncDataFull (b : Byte) (s : State) : Host.Outcome State Fault Refusal :=
  if atSourceByte s && xByte s == b && b != Config.delim && decide (s.code.toNat = 254) then
    .next (encDataFullEffect b s)
  else .refused .stepNotEnabled

/-- ENC.FIN: once, after the scan, `SI = n` (rule R125). -/
def execEncFin (s : State) : Host.Outcome State Fault Refusal :=
  if s.phase = .encScan ∧ s.si = xLen s then .next (encFinEffect s) else .refused .stepNotEnabled

/-! ## The operation -/

/-- `c <- XORFOLD(IN[0 .. IN_LEN-1])` (rule R120): `ACC` holds the checksum byte from here on. -/
def beginEncode (s : State) : State := { foldBytes (bytesOf s .input) s with phase := .encInit }

/-- The body of ENCODE's loop (rule R126). -/
def encByte (s : State) : State :=
  if xByte s = Config.delim then encZeroEffect s
  else if s.code.toNat ≤ 253 then encDataEffect (xByte s) s
  else encDataFullEffect (xByte s) s

/-- `while SI < n` (rule R126), at most `fuel` times; n times is enough (rule R265). -/
def encLoop : Nat → State → State
  | 0, s => s
  | fuel + 1, s => if s.si < xLen s then encLoop fuel (encByte s) else s

/-- The whole of ENCODE after its capacity check: the composition of the micro-steps (rules R16, R126). -/
def encodeRun (s : State) : State := encFinEffect (encLoop (xLen s) (encInitEffect (beginEncode s)))

/-- ENCODE (rule R126); refused over capacity (rule R59) and while another operation is in progress (rule R62). -/
def execEncode (s : State) : Host.Outcome State Fault Refusal :=
  if busy s then .refused .operationInProgress
  else if payloadFits s then .next (encodeRun s)
  else .refused .capacityExceeded

end Sys2Proof.Machine
end

