-- ==== Sys2Proof/Machine/StoreAccess.lean ====
section
/-! DEFINITION. The HOSTOP row GETMSG (rule R200). -/

namespace Sys2Proof.Machine

open Sys2Proof

/-- `OUT[0 .. STORE_LEN-1] <- STORE[0 .. STORE_LEN-1]`, `OUT_LEN <- STORE_LEN` (rule R200); what lay beyond becomes
unspecified (entry U4). -/
def copyStoreOut (s : State) : State := { s with out := Buffer.ofBytes (bytesOf s .store) }

/-- GETMSG (rule R200): it cannot fail; refused only while another operation is in progress (rule R62). -/
def execGetmsg (s : State) : Host.Outcome State Fault Refusal :=
  if busy s then .refused .operationInProgress else .next (copyStoreOut s)

end Sys2Proof.Machine
end

