-- ==== Sys2Proof/Machine/Dispatch.lean ====
section
/-! DEFINITION. One arm per row of the opcode table. -/

namespace Sys2Proof.Machine

open Sys2Proof

def exec (i : Instr) (s : State) : Host.Outcome State Fault Refusal :=
  match i with
  | .checksum => Sys2Proof.Machine.execChecksum s
  | .encode => Sys2Proof.Machine.execEncode s
  | .decode => Sys2Proof.Machine.execDecode s
  | .getmsg => Sys2Proof.Machine.execGetmsg s
  | .ovhEnd => Sys2Proof.Machine.execOvhEnd s
  | .ovhFull => Sys2Proof.Machine.execOvhFull s
  | .ovhBlk l => Sys2Proof.Machine.execOvhBlk l s
  | .dataCopy b => Sys2Proof.Machine.execDataCopy b s
  | .encZero => Sys2Proof.Machine.execEncZero s
  | .encData b => Sys2Proof.Machine.execEncData b s
  | .encDataFull b => Sys2Proof.Machine.execEncDataFull b s
  | .encInit => Sys2Proof.Machine.execEncInit s
  | .encFin => Sys2Proof.Machine.execEncFin s
  | .decInit => Sys2Proof.Machine.execDecInit s
  | .decEoi => Sys2Proof.Machine.execDecEoi s
  | .decValidate => Sys2Proof.Machine.execDecValidate s

end Sys2Proof.Machine
end

