-- ==== Sys2Proof/WellFormed.lean ====
section
/-! DEFINITION. Which operand bytes an instruction admits (rules R84, R86). -/

namespace Sys2Proof

/-- An OVH.BLK carries L in 0x01..0xFE (rule R84); an ENC.DATA of either row carries a non-zero byte (rule R86); every
other instruction is well formed, a DATA.COPY of any of the 256 values included (rule R85). -/
def Instr.wellFormed : Instr → Bool
  | .checksum => true
  | .encode => true
  | .decode => true
  | .getmsg => true
  | .ovhEnd => true
  | .ovhFull => true
  | .ovhBlk l => l != Config.delim && l != Config.ovhFull
  | .dataCopy _ => true
  | .encZero => true
  | .encData b => b != Config.delim
  | .encDataFull b => b != Config.delim
  | .encInit => true
  | .encFin => true
  | .decInit => true
  | .decEoi => true
  | .decValidate => true

end Sys2Proof
end

