-- ==== Sys2Proof/Decode.lean ====
section
/-! DEFINITION. The decoder and the encoder of instructions (rules R84 to R88, R93, R96).  What a byte selects depends on
the context in which it is read (rule R88), so the context is an argument of the decoder. -/

namespace Sys2Proof

/-- The fixed points of an operation at which an IMPLICIT row runs (rule R96). -/
inductive Point where
  | encInit
  | encFin
  | decInit
  | decEoi
  | decValidate
deriving DecidableEq, Repr

/-- The context in which the next instruction is matched (rules R88, R96).  The state `CODE` is part of the SRCBYTE
context, since it chooses between rules R123 and R124. -/
inductive Context where
  | hostop
  | overhead
  | data
  | source (code : Byte)
  | point (p : Point)
deriving DecidableEq, Repr

/-- Why bytes decode to no instruction. -/
inductive DecodeError where
  /-- The context needs a byte and none is there. -/
  | noByte
  /-- A byte above 3 where the 2-bit `OP` is read (rule R93). -/
  | opTooWide
  /-- A non-zero source byte while `CODE` is 255, which no rule enables (rules R24, R123, R124; log entry 15). -/
  | codeOutOfRange
deriving DecidableEq, Repr

/-- The operation a 2-bit `OP` names: all four codes are assigned (rule R93). -/
def decodeOp (op : OpCode) : Instr :=
  if op = 0b00#2 then .checksum
  else if op = 0b01#2 then .encode
  else if op = 0b10#2 then .decode
  else .getmsg

/-- The micro-step a byte at an Overhead position selects, in the order of the table's priorities (rule R84). -/
def decodeOverhead (b : Byte) : Instr :=
  if b = 0x00#8 then .ovhEnd
  else if b = 0xFF#8 then .ovhFull
  else .ovhBlk b

/-- The micro-step a byte of the Extended Message selects (rules R86, R123, R124). -/
def decodeSource (code b : Byte) : Except DecodeError Instr :=
  if b = 0x00#8 then .ok .encZero
  else if code.toNat ≤ 253 then .ok (.encData b)
  else if code.toNat = 254 then .ok (.encDataFull b)
  else .error .codeOutOfRange

/-- The micro-step of a fixed point. -/
def decodePoint : Point → Instr
  | .encInit => .encInit
  | .encFin => .encFin
  | .decInit => .decInit
  | .decEoi => .decEoi
  | .decValidate => .decValidate

/-- The decoder: the instruction the context matches at the head of the bytes, with the bytes that are left. -/
def decode (ctx : Context) (bytes : List Byte) : Except DecodeError (Instr × List Byte) :=
  match ctx with
  | .point p => .ok (decodePoint p, bytes)
  | .hostop =>
    match bytes with
    | [] => .error .noByte
    | b :: rest => if b.toNat < 4 then .ok (decodeOp (b.setWidth 2), rest) else .error .opTooWide
  | .overhead =>
    match bytes with
    | [] => .error .noByte
    | b :: rest => .ok (decodeOverhead b, rest)
  | .data =>
    match bytes with
    | [] => .error .noByte
    | b :: rest => .ok (.dataCopy b, rest)
  | .source code =>
    match bytes with
    | [] => .error .noByte
    | b :: rest =>
      match decodeSource code b with
      | .ok i => .ok (i, rest)
      | .error e => .error e

/-- The encoder: the bytes of an instruction, written from the `encoding` column of the opcode table. -/
def encode : Instr → List Byte
  | .checksum => [0b00000000#8]
  | .encode => [0b00000001#8]
  | .decode => [0b00000010#8]
  | .getmsg => [0b00000011#8]
  | .ovhEnd => [0b00000000#8]
  | .ovhFull => [0b11111111#8]
  | .ovhBlk l => [l]
  | .dataCopy b => [b]
  | .encZero => [0b00000000#8]
  | .encData b => [b]
  | .encDataFull b => [b]
  | .encInit => []
  | .encFin => []
  | .decInit => []
  | .decEoi => []
  | .decValidate => []

/-- Whether a SRCBYTE row is chosen under a value of `CODE` (rules R123, R124). -/
def Instr.sourceRow (code : Byte) : Instr → Bool
  | .encZero => true
  | .encData _ => decide (code.toNat ≤ 253)
  | .encDataFull _ => decide (code.toNat = 254)
  | .checksum | .encode | .decode | .getmsg => false
  | .ovhEnd | .ovhFull | .ovhBlk _ | .dataCopy _ => false
  | .encInit | .encFin | .decInit | .decEoi | .decValidate => false

/-- Whether a context is one in which an instruction's row is matched: the `context` column of the opcode table. -/
def Context.admits (ctx : Context) (i : Instr) : Bool :=
  match ctx with
  | .hostop => decide (i.format = .hostop)
  | .overhead => decide (i.format = .overhead)
  | .data => decide (i.format = .data)
  | .source code => i.sourceRow code
  | .point p => decide (i = decodePoint p)

/-- The context in which a bare word of the opcode table is read: `OP` where the value is one (the instance that has just
been reset reads nothing but `OP`, rule R241), else an Overhead position.  Log entry 17 says which rows share a word. -/
def tableContext (nbits w : Nat) : Option Context :=
  if (nbits = 2 ∨ nbits = 8) ∧ w < 4 then some .hostop
  else if nbits = 8 ∧ w < 256 then some .overhead
  else none

/-- The instruction the decoder reads from a bare word of the opcode table. -/
def decodeTableWord (nbits w : Nat) : Option Instr :=
  match tableContext nbits w with
  | none => none
  | some ctx =>
    match decode ctx [BitVec.ofNat 8 w] with
    | .ok (i, _) => some i
    | .error _ => none

end Sys2Proof
end

