-- ==== Sys2Proof/Machine/Fetch.lean ====
section
/-! DEFINITION. Where the next instruction comes from: the context the state selects (rules R88, R96, R126, R150), the byte
under the scan index, the host's next operation, and the storing of a bare word where the next step fetches it. -/

namespace Sys2Proof.Machine

open Sys2Proof

/-- The context in which the next instruction is matched (rules R88, R126, R150, R157). -/
def nextContext (s : State) : Context :=
  match s.phase with
  | .idle => .hostop
  | .encInit => .point .encInit
  | .encScan => if s.si < xLen s then .source s.code else .point .encFin
  | .decInit => .point .decInit
  | .decScan =>
    if s.term then .point .decValidate
    else if s.fi < s.inp.len then (if s.cnt = 0x00 then .overhead else .data)
    else .point .decEoi
  | .decDone => .point .decValidate

/-- The byte to be matched in an operation in progress: `X[SI]` or `IN[FI]`; an IMPLICIT row matches none. -/
def nextBytes (s : State) : List Byte :=
  match nextContext s with
  | .hostop => []
  | .overhead => [frameByte s]
  | .data => [frameByte s]
  | .source _ => [xByte s]
  | .point _ => []

/-- The byte that carries `OP` (rule R93; log entry 16). -/
def opByte (op : OpCode) : Byte := op.setWidth 8

/-- The host issues an operation with its input buffer: `IN` and `IN_LEN` are its argument from now on (rules R35, R60), and
the host goes on to the rest of its program. -/
def present (input : List Byte) (rest : List HostEvent) (s : State) : State :=
  { s with inp := Buffer.ofBytes input, host := rest }

/-- A 2-bit operation select placed as the host's next operation, with the input buffer as it stands (log entry 18). -/
def placeOp (op : OpCode) (s : State) : State :=
  { s with phase := .idle, host := .issue op (bytesOf s .input) :: s.host }

/-- A byte placed at an Overhead position under the decoder's scan index (log entry 18). -/
def placeOverhead (b : Byte) (s : State) : State :=
  { s with
    phase := .decScan, term := false, cnt := 0x00,
    inp := ⟨Memory.put s.inp.cells s.fi b, max s.inp.len (s.fi + 1)⟩ }

/-- A bare word of the opcode table placed where the next step fetches it. -/
def placeWord (nbits w : Nat) (s : State) : State :=
  match tableContext nbits w with
  | none => s
  | some .hostop => placeOp (BitVec.ofNat 2 w) s
  | some .overhead => placeOverhead (BitVec.ofNat 8 w) s
  | some .data => s
  | some (.source _) => s
  | some (.point _) => s

end Sys2Proof.Machine
end

