-- ==== Sys2Proof/Machine/Run.lean ====
section
/-! DEFINITION. What one step does, idle and in an operation. -/

namespace Sys2Proof.Machine

open Sys2Proof

/-- The instruction the bytes decode to in a context, run. -/
def runDecoded (ctx : Context) (bytes : List Byte) (s : State) : Host.Outcome State Fault Refusal :=
  match decode ctx bytes with
  | .ok (i, _) => exec i s
  | .error _ => .refused .undecodable

/-- An operation that is taken micro-step by micro-step begins, under the capacity check of the operation (rule R59).
CHECKSUM and GETMSG have no micro-step rows and run whole (log entries 3, 23). -/
def runStepped (op : OpCode) (s : State) : Host.Outcome State Fault Refusal :=
  if decodeOp op = .encode then
    if payloadFits s then .next (beginEncode s) else .refused .capacityExceeded
  else if decodeOp op = .decode then
    if frameFits s then .next (beginDecode s) else .refused .capacityExceeded
  else runDecoded .hostop [opByte op] s

/-- The step of an idle instance: the host's next item, or nothing to do (rules R60, R230, R240, R241). -/
def runIdle (s : State) : Host.Outcome State Fault Refusal :=
  match s.host with
  | [] => .next s
  | .reset :: rest => .next (resetEvent rest s)
  | .issue op input :: rest => runDecoded .hostop [opByte op] (present input rest s)
  | .issueStepped op input :: rest => runStepped op (present input rest s)

/-- The step inside an operation: the one micro-step that is enabled (rules R126, R157). -/
def runBusy (s : State) : Host.Outcome State Fault Refusal := runDecoded (nextContext s) (nextBytes s) s

end Sys2Proof.Machine
end

