-- ==== Sys2Proof/Machine/Step.lean ====
section
/-! DEFINITION. One step of the instance, and the placing of a word where the next step fetches it. -/

namespace Sys2Proof.Machine

open Sys2Proof

/-- One step: the host's next item when no operation is in progress, else the operation's next micro-step. -/
def step (s : State) : Host.Outcome State Fault Refusal := if busy s then runBusy s else runIdle s

/-- `s` with the instruction of a bare word stored where step fetches its next instruction (log entry 18). -/
def State.withFetchWord (s : State) (nbits w : Nat) : State := placeWord nbits w s

end Sys2Proof.Machine
end

