-- ==== Sys2Proof/Machine/WireFormat.lean ====
section
/-! DEFINITION. The wire format on byte sequences: Extended Message, Block, Frame (rules R80 to R90), and the closed forms of
the two scans (rules R129, R173).  No step uses this file: claims are stated in its terms. -/

namespace Sys2Proof.Machine

open Sys2Proof

/-! ## Extended Message, Block, Frame -/

/-- The Extended Message of a Payload (rule R81). -/
def extendedMessage (p : List Byte) : List Byte := p ++ [xorFold p]

/-- A Block (rule R82). -/
structure Block where
  overhead : Byte
  data : List Byte
deriving DecidableEq, Repr

/-- The bytes of a Block: its Overhead byte, then its data (rule R82). -/
def blockBytes (b : Block) : List Byte := b.overhead :: b.data

/-- An Overhead value L in 1..255 with `L - 1` data bytes, each of them not 0x00 (rules R80, R82). -/
def blockWf (b : Block) : Bool :=
  b.overhead != Config.delim && decide (b.data.length + 1 = b.overhead.toNat) && b.data.all (fun d => d != Config.delim)

/-- The Frame of a sequence of Blocks: the Blocks with no padding, then one 0x00 (rule R83). -/
def frameBytes (blocks : List Block) : List Byte := blocks.flatMap blockBytes ++ [Config.delim]

/-- A well-formed Frame (rule R89). -/
def WellFormedFrame (f : List Byte) : Prop := ∃ blocks : List Block, blocks.all blockWf = true ∧ f = frameBytes blocks

/-- A canonical Frame: at least one Block, and the last one is not full (rule R90). -/
def CanonicalFrame (f : List Byte) : Prop :=
  ∃ (blocks : List Block) (last : Block),
    (blocks ++ [last]).all blockWf = true ∧ last.overhead ≠ Config.ovhFull ∧ f = frameBytes (blocks ++ [last])

/-! ## The closed form of the encoder (rule R129) -/

/-- A sequence cut at its 0x00 bytes into runs of non-zero bytes; a run may be empty. -/
def zeroFreeRuns : List Byte → List (List Byte)
  | [] => [[]]
  | b :: x =>
    if b = Config.delim then [] :: zeroFreeRuns x
    else
      match zeroFreeRuns x with
      | [] => [[b]]
      | r :: rs => (b :: r) :: rs

/-- `q` full blocks, each `FF` and the next 254 bytes, then one short block with what is left. -/
def emitBlocks : Nat → List Byte → List Byte
  | 0, r => BitVec.ofNat 8 (r.length + 1) :: r
  | q + 1, r => Config.ovhFull :: (r.take 254 ++ emitBlocks q (r.drop 254))

/-- The emission of one run of `m` bytes: `floor(m/254)` full blocks and the short block. -/
def emitRun (r : List Byte) : List Byte := emitBlocks (r.length / 254) r

/-- The Frame of a byte sequence X (rule R129). -/
def frameOf (x : List Byte) : List Byte := (zeroFreeRuns x).flatMap emitRun ++ [Config.delim]

/-- K, the number of full closes: the sum over the runs of `floor(len(run)/254)` (rule R135). -/
def fullCloses (x : List Byte) : Nat := ((zeroFreeRuns x).map fun r => r.length / 254).sum

/-! ## The closed form of the decoder's scan (rule R173) -/

/-- The blocks a frame is read as from its first byte on: each is an Overhead byte and its data, the last one cut short if
the input ends; reading stops at a 0x00 at an Overhead position or at the end.  `fuel` bounds the number of blocks. -/
def parseBlocks : Nat → List Byte → List Block
  | 0, _ => []
  | _ + 1, [] => []
  | fuel + 1, l :: rest =>
    if l = Config.delim then []
    else ⟨l, rest.take (l.toNat - 1)⟩ :: parseBlocks fuel (rest.drop (l.toNat - 1))

/-- `d_1 ++ s_1 ++ ... ++ s_{k-1} ++ d_k` with `s_j = [00]` after a short block and `[]` after a full one. -/
def joinBlocks : List Block → List Byte
  | [] => []
  | [b] => b.data
  | b :: c :: bs =>
    b.data ++ (if b.overhead = Config.ovhFull then [] else [Config.delim]) ++ joinBlocks (c :: bs)

/-- The content of `RB` after the scan of a frame (rule R173); a frame of n bytes has at most n blocks. -/
def reconstruct (f : List Byte) : List Byte := joinBlocks (parseBlocks f.length f)

/-- The verdict of DECODE on a reconstruction: non-empty, and the fold of all of it is 0x00 (rule R174). -/
def accepts (r : List Byte) : Bool := !r.isEmpty && xorFold r == 0x00

/-- The index of the Overhead position at which the scan of a frame stops, or the length of the frame when the input ends
first: `p_{j+1} = p_j + L_j` from `p_1 = 0` (rules R160, R173). -/
def scanEnd : Nat → List Byte → Nat
  | 0, _ => 0
  | _ + 1, [] => 0
  | fuel + 1, l :: rest =>
    if l = Config.delim then 0 else min l.toNat (rest.length + 1) + scanEnd fuel (rest.drop (l.toNat - 1))

/-- Whether index `i` of a frame is a data position, reached by the chain of Overhead bytes from index 0 (rules R88,
R160). -/
def isDataPosition : Nat → List Byte → Nat → Bool
  | 0, _, _ => false
  | _ + 1, [], _ => false
  | fuel + 1, l :: rest, i =>
    if l = Config.delim then false
    else if i = 0 then false
    else if i < l.toNat then decide (i ≤ rest.length)
    else isDataPosition fuel (rest.drop (l.toNat - 1)) (i - l.toNat)

end Sys2Proof.Machine
end

