-- ==== Sys2Proof/Safety.lean ====
section
/-! DEFINITION. The terms in which claims about the instance are stated: next states, what the host can see, the invariants
of rules R44 and R45, and the capacities. -/

namespace Sys2Proof.Machine

open Sys2Proof

/-- The next state of an outcome, if it is one. -/
def nextState? : Host.Outcome State Fault Refusal → Option State
  | .next s => some s
  | .fault _ => none
  | .refused _ => none

/-- An outcome with a function applied to its next state. -/
def mapOutcome (f : State → State) : Host.Outcome State Fault Refusal → Host.Outcome State Fault Refusal
  | .next s => .next (f s)
  | .fault r => .fault r
  | .refused r => .refused r

/-- What the host can read after an operation: `OUT[0 .. OUT_LEN-1]`, `OUT_LEN`, `OK`, `RES` (rules R36, R60), and the Store,
which GETMSG would read. -/
structure Visible where
  out : List Byte
  outLen : Nat
  ok : Bool
  res : Byte
  store : List Byte
  storeLen : Nat
deriving DecidableEq, Repr

/-- The visible part of a state. -/
def visible (s : State) : Visible where
  out := bytesOf s .out
  outLen := s.out.len
  ok := s.ok
  res := s.res
  store := bytesOf s .store
  storeLen := s.store.len

/-- The same state with other values of the working registers, of `RB` and `RB_LEN`: the elements whose value between
operations is never read (rules R21, R42, entry U6). -/
def withWorking (w s : State) : State :=
  { s with
    acc := w.acc, code := w.code, slot := w.slot, wr := w.wr, si := w.si, cnt := w.cnt,
    first := w.first, prevFull := w.prevFull, term := w.term, fi := w.fi, rb := w.rb }

/-- The same state with another advisory frame size and index width, which no rule reads (rules R8, R196). -/
def withAdvisory (maxFrame width : Option Nat) (s : State) : State :=
  { s with params := { s.params with maxFrameSize := maxFrame, wIdx := width } }

/-- The invariant of the ENCODE scan (rule R44).  Its clause on `WR - SI - 1`, the number K of full closes so far, says that
each of them consumed 254 source bytes. -/
structure EncInv (s : State) : Prop where
  codeLow : 1 ≤ s.code.toNat
  codeHigh : s.code.toNat ≤ 254
  write : s.wr = s.slot + s.code.toNat
  scan : s.si ≤ xLen s
  ahead : s.si < s.wr
  closes : (s.wr - s.si - 1) * 254 + (s.code.toNat - 1) ≤ s.si
  checksum : s.acc = xorFold (bytesOf s .input)
  cells : Memory.wf s.out.cells
  reserved : Memory.read? s.out.cells s.slot = none
  written : ∀ i, i < s.wr → i ≠ s.slot → ∃ v, Memory.read? s.out.cells i = some v ∧ v ≠ Config.delim

/-- The invariant of the DECODE scan (rules R45, R172). -/
structure DecInv (s : State) : Prop where
  count : s.cnt.toNat ≤ 254
  length : s.rb.len ≤ s.fi - 1
  scan : s.fi ≤ s.inp.len
  firstClear : s.first = true → s.rb.len = 0 ∧ s.cnt = 0x00
  firstAtStart : s.fi = 0 → s.first = true
  firstOnly : s.first = true → s.term = false → s.fi = 0
  stopped : s.term = true → s.cnt = 0x00

/-- The invariant of the instance: every buffer holds exactly its valid indices (rules R34, R50), and an operation in progress
keeps the invariant of its scan. -/
structure State.Inv (s : State) : Prop where
  inpFull : s.inp.full
  rbFull : s.rb.full
  storeFull : s.store.full
  outFull : s.phase ≠ .encScan → s.out.full
  encReady : s.phase = .encInit → s.acc = xorFold (bytesOf s .input)
  encoding : s.phase = .encScan → EncInv s
  decoding : s.phase = .decScan → DecInv s
  decoded : s.phase = .decDone → DecInv s ∧ s.fi = s.inp.len ∧ s.term = false

/-- An operation in progress was accepted: its input is within the instance's capacity (rule R59). -/
structure State.WithinCapacity (s : State) : Prop where
  payload : s.phase = .encInit ∨ s.phase = .encScan → payloadFits s = true
  frame : s.phase = .decInit ∨ s.phase = .decScan ∨ s.phase = .decDone → frameFits s = true
  rb : ∀ m, s.params.frameInMax = some m → s.rb.len ≤ Config.rbCapacity m
  store : ∀ m, s.params.frameInMax = some m → s.store.len ≤ Config.storeCapacity m

/-- The values of rule R43 after RESET and power-on.  The bytes of `STORE`, `OUT` and `RB` are unspecified there: no index holds a
written byte. -/
structure ResetValues (t : State) : Prop where
  storeLen : t.store.len = 0
  outLen : t.out.len = 0
  rbLen : t.rb.len = 0
  unwritten : ∀ i, Memory.read? t.store.cells i = none ∧ Memory.read? t.out.cells i = none ∧ Memory.read? t.rb.cells i = none
  ok : t.ok = false
  res : t.res = 0x00
  acc : t.acc = 0x00
  code : t.code = 0x01
  slot : t.slot = 0
  wr : t.wr = 1
  si : t.si = 0
  fi : t.fi = 0
  cnt : t.cnt = 0x00
  first : t.first = true
  prevFull : t.prevFull = false
  term : t.term = false

/-- The byte at an address reads after as it did before, unless the address is excepted. -/
def BytesKeptExcept (stored : Space → Nat → Prop) (s t : State) : Prop :=
  ∀ sp i, ¬ stored sp i → memRead t sp i = memRead s sp i

/-- A host event that leaves the Store alone: an atomic operation other than a DECODE that its input lets succeed. -/
def keepsStore : HostEvent → Bool
  | .issue op f => op != 0b10 || !accepts (reconstruct f)
  | .issueStepped _ _ => false
  | .reset => false

/-- The input of a host event is within both capacities. -/
def eventFits (p : Config.Params) : HostEvent → Bool
  | .issue _ f => Config.fits p.nMax f.length && Config.fits p.frameInMax f.length
  | .issueStepped _ f => Config.fits p.nMax f.length && Config.fits p.frameInMax f.length
  | .reset => true

/-- The four host operations (rule R93). -/
def isHostOp (i : Instr) : Bool := decide (i.format = .hostop)

end Sys2Proof.Machine
end

