-- ==== Sys2Proof/Certificates/Slice0/Obligations.lean ====
section
/-! DEFINITION. The statements for the provers.  Each docstring names the rules of spec/ it formalises; where a clause is the
model's own choice the docstring names the log entry. -/

open Sys2Proof Sys2Proof.Machine

/-! ## Encodings -/

/-- Words written out from the encodings of the opcode table decode to the rows they stand for, one or more of every
format.  In the HOSTOP clauses the 2-bit `OP` stands in the two low bits of one byte: the spec gives `OP` no byte form, so that
carrier is the model's choice (log entry 16). -/
def Obligations.TableWordsDecodeToTheirRows : Prop :=
  decode .hostop [0b00000000#8] = .ok (.checksum, []) ∧ decode .hostop [0b00000001#8] = .ok (.encode, []) ∧
  decode .hostop [0b00000010#8] = .ok (.decode, []) ∧ decode .hostop [0b00000011#8] = .ok (.getmsg, []) ∧
  decode .overhead [0b00000000#8] = .ok (.ovhEnd, []) ∧ decode .overhead [0b11111111#8] = .ok (.ovhFull, []) ∧
  decode .overhead [0b00000100#8] = .ok (.ovhBlk 0x04, []) ∧ decode .data [0b00000000#8] = .ok (.dataCopy 0x00, []) ∧
  decode (.source 0x01) [0b00000000#8] = .ok (.encZero, []) ∧
  decode (.source 0xFD) [0b11111111#8] = .ok (.encData 0xFF, []) ∧
  decode (.source 0xFE) [0b00000001#8] = .ok (.encDataFull 0x01, []) ∧
  decode (.point .encInit) [] = .ok (.encInit, []) ∧ decode (.point .encFin) [] = .ok (.encFin, []) ∧
  decode (.point .decInit) [] = .ok (.decInit, []) ∧ decode (.point .decEoi) [] = .ok (.decEoi, []) ∧
  decode (.point .decValidate) [] = .ok (.decValidate, [])

/-- Rule R84: at an Overhead position of the scan the byte's value alone selects one of the three micro-steps, and every one
of the 256 values selects one. -/
def Obligations.OverheadByteSelectsByItsValue : Prop :=
  (∀ s : State, atOverhead s = true → nextContext s = .overhead ∧ nextBytes s = [frameByte s]) ∧
  ∀ (b : Byte) (rest : List Byte),
    (b = 0x00#8 → decode .overhead (b :: rest) = .ok (.ovhEnd, rest)) ∧
    (b = 0xFF#8 → decode .overhead (b :: rest) = .ok (.ovhFull, rest)) ∧
    (b ≠ 0x00#8 → b ≠ 0xFF#8 → decode .overhead (b :: rest) = .ok (.ovhBlk b, rest))

/-- Rule R85: at a data position every one of the 256 values selects DATA.COPY, which copies it; 0x00 too. -/
def Obligations.DataByteIsAlwaysCopied : Prop :=
  (∀ (b : Byte) (rest : List Byte), decode .data (b :: rest) = .ok (.dataCopy b, rest)) ∧
  ∀ s : State, atData s = true →
    nextContext s = .data ∧ nextBytes s = [frameByte s] ∧
    ∃ t, exec (.dataCopy (frameByte s)) s = .next t ∧ bytesOf t .rb = bytesOf s .rb ++ [frameByte s]

/-- Rule R86: a byte of the Extended Message selects ENC.ZERO when it is 0x00 and ENC.DATA otherwise, in the row of rule R124
when it is the 254th data byte of the block. -/
def Obligations.SourceByteSelectsByItsValue : Prop :=
  (∀ s : State, atSourceByte s = true → nextContext s = .source s.code ∧ nextBytes s = [xByte s]) ∧
  ∀ (code b : Byte) (rest : List Byte),
    (b = 0x00#8 → decode (.source code) (b :: rest) = .ok (.encZero, rest)) ∧
    (b ≠ 0x00#8 → code.toNat ≤ 253 → decode (.source code) (b :: rest) = .ok (.encData b, rest)) ∧
    (b ≠ 0x00#8 → code.toNat = 254 → decode (.source code) (b :: rest) = .ok (.encDataFull b, rest))

/-- Decoding the bytes of a well-formed instruction, in any context in which its row is matched and whatever follows, gives
it back with nothing else consumed: no operand bit of any of the sixteen rows is dropped.  The byte that carries `OP` in the
HOSTOP rows is the model's choice (log entry 16). -/
def Obligations.DecodeOfEncodeIsTheInstruction : Prop :=
  ∀ (ctx : Context) (i : Instr) (rest : List Byte),
    i.wellFormed = true → ctx.admits i = true → decode ctx (encode i ++ rest) = .ok (i, rest)

/-- What the decoder answers is well formed, is matched in the context it was read in, and its encoding is exactly the bytes
consumed: no two words of one context stand for one instruction.  The byte that carries `OP` in the HOSTOP context is the
model's choice (log entry 16). -/
def Obligations.DecodedBytesAreTheEncoding : Prop :=
  ∀ (ctx : Context) (bytes rest : List Byte) (i : Instr),
    decode ctx bytes = .ok (i, rest) →
      i.wellFormed = true ∧ ctx.admits i = true ∧ bytes = encode i ++ rest

/-! ## The step, the host's program and RESET -/

/-- One step runs the decoded instruction.  In an operation it is exec of what the context and the byte under the scan index
decode to; idle, it is exec of the host operation that `OP` names with the host's buffer in `IN`, for an operation issued whole
and for CHECKSUM and GETMSG issued stepwise (log entries 1, 2, 3; the byte that carries `OP` to the
decoder is log entry 16). -/
def Obligations.StepRunsTheDecodedInstruction : Prop :=
  (∀ (s : State) (i : Instr) (rest : List Byte),
    s.phase ≠ .idle → decode (nextContext s) (nextBytes s) = .ok (i, rest) → step s = exec i s) ∧
  (∀ (s : State) (op : OpCode) (input : List Byte) (tail : List HostEvent),
    s.phase = .idle → s.host = .issue op input :: tail →
      decode .hostop [opByte op] = .ok (decodeOp op, []) ∧
      bytesOf (present input tail s) .input = input ∧ (present input tail s).inp.len = input.length ∧
      step s = exec (decodeOp op) (present input tail s)) ∧
  (∀ (s : State) (op : OpCode) (input : List Byte) (tail : List HostEvent),
    s.phase = .idle → s.host = .issueStepped op input :: tail → op = 0b00#2 ∨ op = 0b11#2 →
      step s = exec (decodeOp op) (present input tail s)) ∧
  (∀ s : State, s.phase = .idle → s.host = [] → step s = .next s)

/-- Rule R43: power-on and the RESET event put every element in the state of that rule's table (the values the spec marks as its
decision D11 or as derived).  Two points are the model's own: that the bytes R43 calls unspecified, and those of `RB`, are indices
without a written byte (log entry 7), and that the RESET event is an item of the host's program, taken between operations (log
entries 1, 11). -/
def Obligations.ResetGivesTheResetValues : Prop :=
  ResetValues State.reset ∧
  ∀ (s : State) (tail : List HostEvent), s.phase = .idle → s.host = .reset :: tail →
    ∃ t, step s = .next t ∧ ResetValues t

/-- The model's own conventions about the RESET event (log entries 4, 5, 11): it falls between two operations and leaves the
instance idle, and the argument buffer `IN` (which is no state of the block), the parameters and the rest of the host's program
stay.  And the conventions about power-on (log entries 1, 5, 10): the argument buffer and the host's program are empty. -/
def Obligations.ResetKeepsTheHostsArgument : Prop :=
  (∀ (s : State) (tail : List HostEvent), s.phase = .idle → s.host = .reset :: tail →
    ∃ t, step s = .next t ∧ t.phase = .idle ∧ t.inp = s.inp ∧ t.params = s.params ∧ t.host = tail) ∧
  State.reset.phase = .idle ∧ State.reset.inp.len = 0 ∧ State.reset.host = []

/-- Rule R241, its second half: from the reset values the instance accepts any of the four operations as its first (an input within
both capacities; the exact condition of each operation is that of ChecksumFoldsTheInput, EncodeYieldsTheClosedForm,
DecodeYieldsTheClosedForm and GetmsgCopiesTheStore).  That it is idle after RESET, the first half, is a hypothesis here and the
conclusion of ResetKeepsTheHostsArgument.  The host's program from which the operation is issued is the model's (log entry 1). -/
def Obligations.AnyOperationMayBeTheFirst : Prop :=
  ∀ (s : State) (op : OpCode) (input : List Byte) (tail : List HostEvent),
    ResetValues s → s.phase = .idle → s.host = .issue op input :: tail →
    Config.fits s.params.nMax input.length = true → Config.fits s.params.frameInMax input.length = true →
      ∃ t, step s = .next t ∧ t.phase = .idle

/-- Rule R214, entries U1 and U5: the two refusals.  An operation issued while another is in progress, and an input longer
than the instance's capacity, have no step; GETMSG reads no input and has no capacity. -/
def Obligations.OperationsOutsideTheirDomainAreRefused : Prop :=
  (∀ (s : State) (i : Instr), isHostOp i = true → s.phase ≠ .idle → exec i s = .refused .operationInProgress) ∧
  (∀ s : State, s.phase = .idle → payloadFits s = false →
    exec .checksum s = .refused .capacityExceeded ∧ exec .encode s = .refused .capacityExceeded) ∧
  (∀ s : State, s.phase = .idle → frameFits s = false → exec .decode s = .refused .capacityExceeded)

/-! ## The checksum engine -/

/-- Rule R112: CHECKSUM writes the fold of the input into `RES`, and beside it only the engine's working registers `ACC` and `SI`;
its corner cases.  The values `ACC` and `SI` keep after the operation (log entry 9, where entry U6 allows any value) and the byte
form of `OP` (log entry 16) are the model's choice. -/
def Obligations.ChecksumFoldsTheInput : Prop :=
  (∀ s : State, s.phase = .idle → payloadFits s = true →
    exec .checksum s =
      .next { s with
        res := xorFold (bytesOf s .input), acc := xorFold (bytesOf s .input), si := s.inp.len }) ∧
  decode .hostop [0x00#8] = .ok (.checksum, []) ∧
  xorFold [] = 0x00#8 ∧ (∀ b : Byte, xorFold [b] = b) ∧ (∀ b : Byte, xorFold [b, b] = 0x00#8) ∧
  xorFold [0x01, 0x02, 0x03] = 0x00#8 ∧
  ∀ p q : List Byte, xorFold (p ++ 0x00#8 :: q) = xorFold (p ++ q)

/-- Rule R113: the laws of the fold. -/
def Obligations.XorFoldLaws : Prop :=
  (∀ a b c : Byte, a ^^^ b = b ^^^ a ∧ (a ^^^ b) ^^^ c = a ^^^ (b ^^^ c) ∧ a ^^^ 0x00#8 = a ∧ a ^^^ a = 0x00#8) ∧
  (∀ (a b : Byte) (i : Nat), i < 8 → ((a ^^^ b).getLsbD i = true ↔ a.getLsbD i ≠ b.getLsbD i)) ∧
  (∀ p q : List Byte, xorFold (p ++ q) = xorFold p ^^^ xorFold q) ∧ xorFold [] = 0x00#8 ∧
  (∀ b : Byte, xorFold [b] = b) ∧
  (∀ p q : List Byte, p.Perm q → xorFold p = xorFold q) ∧
  (∀ (p : List Byte) (i : Nat), i < 8 →
    ((xorFold p).getLsbD i = true ↔ (p.countP fun b => b.getLsbD i) % 2 = 1)) ∧
  (∀ p : List Byte, xorFold (p ++ [xorFold p]) = 0x00#8) ∧
  (∀ (p : List Byte) (r : Byte), xorFold p = r ↔ xorFold (p ++ [r]) = 0x00#8) ∧
  (∀ p q : List Byte, xorFold (p ++ 0x00#8 :: q) = xorFold (p ++ q)) ∧
  ∀ (p q r : List Byte) (b : Byte), xorFold (p ++ b :: (q ++ b :: r)) = xorFold (p ++ q ++ r)

/-! ## The encoder's micro-steps -/

/-- Rule R121: ENC.INIT.  Rule R121 reserves `OUT[0]` and does not write it; that no written byte stands there from then on, so that
the frame excepts it, is the model's reading (log entry 8, from rules R42 and R44 and entry U11). -/
def Obligations.EncInitOpensTheFirstBlock : Prop :=
  ∀ s : State, s.phase = .encInit →
    ∃ t, exec .encInit s = .next t ∧
      t = { s with out := t.out, slot := 0, wr := 1, code := 0x01, si := 0, phase := .encScan } ∧
      t.out.len = s.out.len ∧ Memory.read? t.out.cells 0 = none ∧
      BytesKeptExcept (fun sp i => sp = .out ∧ i = 0) s t

/-- Rule R122: ENC.ZERO closes the open block by the backpatch and reserves the next position; the 0x00 is consumed and
nothing is written for it.  That the reserved position holds no written byte from then on, so that the frame excepts it beside the
one byte that is written, is the model's reading (log entry 8, from rules R42 and R44 and entry U11). -/
def Obligations.EncZeroClosesTheBlock : Prop :=
  ∀ s : State, s.phase = .encScan → s.si < xLen s → xByte s = 0x00#8 →
    ∃ t, exec .encZero s = .next t ∧
      t = { s with out := t.out, slot := s.wr, wr := s.wr + 1, code := 0x01, si := s.si + 1 } ∧
      t.out.len = s.out.len ∧
      (s.slot < s.wr → memRead t .out s.slot = s.code) ∧ Memory.read? t.out.cells s.wr = none ∧
      BytesKeptExcept (fun sp i => sp = .out ∧ (i = s.slot ∨ i = s.wr)) s t

/-- Rule R123: ENC.DATA with `CODE <= 253` appends the byte and leaves the block open. -/
def Obligations.EncDataAppendsTheByte : Prop :=
  ∀ (s : State) (b : Byte), s.phase = .encScan → s.si < xLen s → xByte s = b → b ≠ 0x00#8 → s.code.toNat ≤ 253 →
    ∃ t, exec (.encData b) s = .next t ∧
      t = { s with out := t.out, wr := s.wr + 1, code := s.code + 1, si := s.si + 1 } ∧
      t.code.toNat = s.code.toNat + 1 ∧ t.out.len = s.out.len ∧ memRead t .out s.wr = b ∧
      BytesKeptExcept (fun sp i => sp = .out ∧ i = s.wr) s t

/-- Rule R124: ENC.DATA with `CODE = 254` appends the byte, closes the block with Overhead 0xFF and opens a new one.  That the
reserved position of the new block holds no written byte from then on, so that the frame excepts it beside the two bytes that are
written, is the model's reading (log entry 8, from rules R42 and R44 and entry U11). -/
def Obligations.EncDataFullClosesTheFullBlock : Prop :=
  ∀ (s : State) (b : Byte), s.phase = .encScan → s.si < xLen s → xByte s = b → b ≠ 0x00#8 → s.code.toNat = 254 →
    ∃ t, exec (.encDataFull b) s = .next t ∧
      t = { s with out := t.out, slot := s.wr + 1, wr := s.wr + 2, code := 0x01, si := s.si + 1 } ∧
      t.out.len = s.out.len ∧
      (s.slot < s.wr → memRead t .out s.wr = b ∧ memRead t .out s.slot = 0xFF#8) ∧
      Memory.read? t.out.cells (s.wr + 1) = none ∧
      BytesKeptExcept (fun sp i => sp = .out ∧ (i = s.wr ∨ i = s.slot ∨ i = s.wr + 1)) s t

/-- Rule R125: ENC.FIN closes the last block, appends exactly one Delimiter and sets `OUT_LEN`.  (What lies beyond `OUT_LEN`
is unspecified from then on: entry U4, log entry 8.) -/
def Obligations.EncFinAppendsTheDelimiter : Prop :=
  ∀ s : State, s.phase = .encScan → s.si = xLen s →
    ∃ t, exec .encFin s = .next t ∧
      t = { s with out := t.out, wr := s.wr + 1, phase := .idle } ∧ t.out.len = s.wr + 1 ∧
      (s.slot < s.wr → memRead t .out s.slot = s.code) ∧ memRead t .out s.wr = 0x00#8 ∧
      BytesKeptExcept (fun sp i => sp = .out ∧ (i = s.slot ∨ s.wr ≤ i)) s t

/-! ## ENCODE -/

/-- Rules R129, R132: ENCODE is a total function of the Payload alone, and the Frame is the closed form: the runs of the
Extended Message between its 0x00 bytes, each emitted as its full blocks and one short block, then 0x00.  It writes `OUT`, `OUT_LEN`
and the encoder's working registers, and nothing else. -/
def Obligations.EncodeYieldsTheClosedForm : Prop :=
  ∀ s : State, s.phase = .idle → payloadFits s = true →
    ∃ t, exec .encode s = .next t ∧
      bytesOf t .out = frameOf (extendedMessage (bytesOf s .input)) ∧
      t = { s with out := t.out, acc := t.acc, si := t.si, slot := t.slot, wr := t.wr, code := t.code } ∧
      BytesKeptExcept (fun sp _ => sp = .out) s t

/-- Rule R133: a Frame holds 0x00 only as its final byte, and there it does. -/
def Obligations.EncodeLeavesNoInteriorDelimiter : Prop :=
  ∀ s : State, s.phase = .idle → payloadFits s = true →
    ∃ t, exec .encode s = .next t ∧ 0 < t.out.len ∧ memRead t .out (t.out.len - 1) = 0x00#8 ∧
      ∀ i, i + 1 < t.out.len → memRead t .out i ≠ 0x00#8

/-- Rule R134: the output of ENCODE is a canonical well-formed Frame. -/
def Obligations.EncodeYieldsACanonicalFrame : Prop :=
  ∀ s : State, s.phase = .idle → payloadFits s = true →
    ∃ t, exec .encode s = .next t ∧ CanonicalFrame (bytesOf t .out)

/-- Rule R135: the exact length `OUT_LEN = n + K + 2`, its bounds and when they are reached, and where the source's formula
`n + ceil(n/254) + 1` holds and where it is one byte short (conflict C3); and that a finite instance's derived capacity of `OUT`
(rules R8, R130, R255) is never exceeded. -/
def Obligations.EncodeLengthIsExact : Prop :=
  ∀ s : State, s.phase = .idle → payloadFits s = true →
    ∃ t, exec .encode s = .next t ∧
      t.out.len = xLen s + fullCloses (extendedMessage (bytesOf s .input)) + 2 ∧
      xLen s + 2 ≤ t.out.len ∧ t.out.len ≤ xLen s + xLen s / 254 + 2 ∧
      (t.out.len = xLen s + xLen s / 254 + 2 ↔ fullCloses (extendedMessage (bytesOf s .input)) = xLen s / 254) ∧
      (0x00#8 ∉ extendedMessage (bytesOf s .input) → t.out.len = xLen s + xLen s / 254 + 2) ∧
      (t.out.len = xLen s + 2 ↔ ∀ r ∈ zeroFreeRuns (extendedMessage (bytesOf s .input)), r.length < 254) ∧
      (xLen s % 254 ≠ 0 ∨ fullCloses (extendedMessage (bytesOf s .input)) < xLen s / 254 →
        t.out.len ≤ xLen s + (xLen s + 253) / 254 + 1) ∧
      (xLen s % 254 = 0 → 0x00#8 ∉ extendedMessage (bytesOf s .input) →
        t.out.len = xLen s + (xLen s + 253) / 254 + 1 + 1) ∧
      ∀ m, s.params.nMax = some m → t.out.len ≤ Config.outCapacity m

/-! ## The decoder's micro-steps -/

/-- Rule R151: DEC.INIT. -/
def Obligations.DecInitStartsAfresh : Prop :=
  ∀ s : State, s.phase = .decInit →
    ∃ t, exec .decInit s = .next t ∧
      t = { s with
        fi := 0, cnt := 0x00, first := true, prevFull := false, term := false, rb := t.rb, phase := .decScan } ∧
      t.rb.len = 0 ∧ bytesOf t .rb = [] ∧ BytesKeptExcept (fun sp _ => sp = .rb) s t

/-- Rule R152: OVH.END consumes the Delimiter and stops the scan; `RB` is not changed. -/
def Obligations.OvhEndStopsTheScan : Prop :=
  ∀ s : State, s.phase = .decScan → s.term = false → s.fi < s.inp.len → s.cnt = 0x00#8 → frameByte s = 0x00#8 →
    exec .ovhEnd s = .next { s with fi := s.fi + 1, term := true }

/-- Rule R153: OVH.BLK restores one 0x00 when it is not the first block and the one before was short, then opens a block of
`L - 1` data bytes (conflict C1). -/
def Obligations.OvhBlkOpensAShortBlock : Prop :=
  ∀ (s : State) (l : Byte), s.phase = .decScan → s.term = false → s.fi < s.inp.len → s.cnt = 0x00#8 →
    frameByte s = l → l ≠ 0x00#8 → l ≠ 0xFF#8 →
    ∃ t, exec (.ovhBlk l) s = .next t ∧
      t = { s with rb := t.rb, first := false, prevFull := false, cnt := t.cnt, fi := s.fi + 1 } ∧
      t.cnt.toNat = l.toNat - 1 ∧
      (s.first = false ∧ s.prevFull = false → bytesOf t .rb = bytesOf s .rb ++ [0x00#8] ∧ t.rb.len = s.rb.len + 1) ∧
      (s.first = true ∨ s.prevFull = true → t.rb = s.rb) ∧
      BytesKeptExcept (fun sp i => sp = .rb ∧ i = s.rb.len ∧ s.first = false ∧ s.prevFull = false) s t

/-- Rule R154: OVH.FULL makes the same restoration test on the block before it, then opens a block of 254 data bytes. -/
def Obligations.OvhFullOpensAFullBlock : Prop :=
  ∀ s : State, s.phase = .decScan → s.term = false → s.fi < s.inp.len → s.cnt = 0x00#8 → frameByte s = 0xFF#8 →
    ∃ t, exec .ovhFull s = .next t ∧
      t = { s with rb := t.rb, first := false, prevFull := true, cnt := 254#8, fi := s.fi + 1 } ∧
      (s.first = false ∧ s.prevFull = false → bytesOf t .rb = bytesOf s .rb ++ [0x00#8] ∧ t.rb.len = s.rb.len + 1) ∧
      (s.first = true ∨ s.prevFull = true → t.rb = s.rb) ∧
      BytesKeptExcept (fun sp i => sp = .rb ∧ i = s.rb.len ∧ s.first = false ∧ s.prevFull = false) s t

/-- Rule R155: DATA.COPY appends the byte, whatever its value, and counts it. -/
def Obligations.DataCopyAppendsTheByte : Prop :=
  ∀ (s : State) (b : Byte), s.phase = .decScan → s.term = false → s.fi < s.inp.len → s.cnt ≠ 0x00#8 →
    frameByte s = b →
    ∃ t, exec (.dataCopy b) s = .next t ∧
      t = { s with rb := t.rb, cnt := t.cnt, fi := s.fi + 1 } ∧ t.cnt.toNat + 1 = s.cnt.toNat ∧
      bytesOf t .rb = bytesOf s .rb ++ [b] ∧ t.rb.len = s.rb.len + 1 ∧
      BytesKeptExcept (fun sp i => sp = .rb ∧ i = s.rb.len) s t

/-- Rule R156: DEC.EOI writes nothing; the scan is over (the phase is the model's own field, log entry 4) with `TERM = 0`, whatever
`CNT` is. -/
def Obligations.DecEoiWritesNothing : Prop :=
  ∀ s : State, s.phase = .decScan → s.term = false → s.fi = s.inp.len →
    exec .decEoi s = .next { s with phase := .decDone }

/-- Rule R169: DEC.VALIDATE on an empty `RB` fails and leaves the Store; and the inputs whose DECODE ends there are exactly the
empty input, one whose first byte is 0x00, a single byte, and 01 00 followed by anything. -/
def Obligations.EmptyReconstructionFails : Prop :=
  (∀ s : State, scanOver s = true → s.rb.len = 0 →
    exec .decValidate s = .next { s with ok := false, phase := .idle } ∧ failCause s = some .emptyOrTruncatedFrame) ∧
  ∀ s : State, s.phase = .idle → frameFits s = true →
    ∃ t, exec .decode s = .next t ∧
      (t.rb.len = 0 ↔
        bytesOf s .input = [] ∨ (∃ r, bytesOf s .input = 0x00#8 :: r) ∨ (∃ l, bytesOf s .input = [l]) ∨
        ∃ r, bytesOf s .input = 0x01#8 :: 0x00#8 :: r) ∧
      (t.rb.len = 0 → t.ok = false ∧ t.store = s.store)

/-- Rule R170: the success arm of DEC.VALIDATE.  The rule says nothing of `ACC` and `SI`: that the fold is made in them (log entry
21) and that they keep what it left after the operation (log entry 9, where entry U6 allows any value) is the model's. -/
def Obligations.MatchingChecksumReplacesTheStore : Prop :=
  ∀ s : State, scanOver s = true → 1 ≤ s.rb.len →
    xorFold (bytesOf s .rb).dropLast = memRead s .rb (s.rb.len - 1) →
    ∃ t, exec .decValidate s = .next t ∧
      t = { s with
        store := t.store, ok := true, phase := .idle, acc := xorFold (bytesOf s .rb).dropLast, si := s.rb.len - 1 } ∧
      bytesOf t .store = (bytesOf s .rb).dropLast ∧ t.store.len = s.rb.len - 1 ∧ failCause s = none ∧
      BytesKeptExcept (fun sp _ => sp = .store) s t

/-- Rule R171: the mismatch arm of DEC.VALIDATE; a one-byte `RB` that is not 0x00 reaches it.  The rule says nothing of `ACC` and
`SI`: that the fold is made in them (log entry 21) and that they keep what it left after the operation (log entry 9, where entry U6
allows any value) is the model's. -/
def Obligations.MismatchLeavesTheStore : Prop :=
  (∀ s : State, scanOver s = true → 1 ≤ s.rb.len →
    xorFold (bytesOf s .rb).dropLast ≠ memRead s .rb (s.rb.len - 1) →
    exec .decValidate s =
      .next { s with
        ok := false, phase := .idle, acc := xorFold (bytesOf s .rb).dropLast, si := s.rb.len - 1 } ∧
      failCause s = some .checksumMismatch) ∧
  ∀ (s : State) (b : Byte), bytesOf s .rb = [b] → b ≠ 0x00#8 →
    xorFold (bytesOf s .rb).dropLast ≠ memRead s .rb (s.rb.len - 1)

/-- Rule R157: inside the scan of DECODE exactly one micro-step is enabled, it is the one the decoder selects, and it consumes
exactly one byte unless it is DEC.EOI. -/
def Obligations.ExactlyOneScanStepIsEnabled : Prop :=
  ∀ s : State, s.phase = .decScan → DecInv s → s.term = false →
    ∃ i t, decode (nextContext s) (nextBytes s) = .ok (i, []) ∧ exec i s = .next t ∧
      (∀ j u, exec j s = .next u → j = i) ∧
      (i = .decEoi ∧ t.fi = s.fi ∨ i ≠ .decEoi ∧ t.fi = s.fi + 1)

/-! ## DECODE and the Store -/

/-- Rules R173, R174: DECODE is a total function of the input and the old Store.  `RB` is the closed form of the scan; `OK` is 1
exactly when it is non-empty and folds to 0x00, and then the new Store is `RB` without its last byte; otherwise the Store is the
old one.  It writes `OK`, the Store, `RB` and the decoder's working registers, and nothing else. -/
def Obligations.DecodeYieldsTheClosedForm : Prop :=
  ∀ s : State, s.phase = .idle → frameFits s = true →
    ∃ t, exec .decode s = .next t ∧
      bytesOf t .rb = reconstruct (bytesOf s .input) ∧
      (t.ok = true ↔
        reconstruct (bytesOf s .input) ≠ [] ∧ xorFold (reconstruct (bytesOf s .input)) = 0x00#8) ∧
      (t.ok = true → bytesOf t .store = (reconstruct (bytesOf s .input)).dropLast ∧ t.store.len + 1 = t.rb.len) ∧
      (t.ok = false → t.store = s.store) ∧
      t = { s with
        store := t.store, ok := t.ok, rb := t.rb, fi := t.fi, cnt := t.cnt, first := t.first, prevFull := t.prevFull,
        term := t.term, acc := t.acc, si := t.si } ∧
      BytesKeptExcept (fun sp _ => sp = .rb ∨ sp = .store) s t

/-- Rule R162: bytes after the first 0x00 at an Overhead position have no influence on `OK`, the Store or anything else DECODE
leaves. -/
def Obligations.BytesAfterTheDelimiterAreNeverRead : Prop :=
  ∀ (s u : State) (junk : List Byte),
    s.phase = .idle → u.phase = .idle → frameFits s = true → frameFits u = true →
    bytesOf u .input = bytesOf s .input ++ junk → u.store = s.store →
    ∀ t, exec .decode s = .next t → t.term = true →
      ∃ v, exec .decode u = .next v ∧ v.ok = t.ok ∧ v.store = t.store ∧ v.rb = t.rb ∧ v.fi = t.fi ∧ v.term = true

/-- Rule R172: the size of the reconstruction and of the Store, and an input that reaches the bound. -/
def Obligations.ReconstructionIsShorterThanTheInput : Prop :=
  (∀ s : State, s.phase = .idle → frameFits s = true →
    ∃ t, exec .decode s = .next t ∧ t.rb.len ≤ max (s.inp.len - 1) 0 ∧ (1 ≤ t.fi → t.rb.len ≤ t.fi - 1) ∧
      (t.ok = true → t.store.len ≤ max (s.inp.len - 2) 0)) ∧
  ∀ (s : State) (n : Nat), s.phase = .idle → frameFits s = true → bytesOf s .input = List.replicate (n + 1) 0x01#8 →
    ∃ t, exec .decode s = .next t ∧ t.rb.len = n

/-- Rule R217: what a failed DECODE does, and nothing more: `OK` is 0, the Store, `OUT` and `RES` are as before, and the instance
is ready for the next operation (rule R218). -/
def Obligations.FailedDecodeChangesNothingPersistent : Prop :=
  ∀ s t : State, s.phase = .idle → exec .decode s = .next t →
    reconstruct (bytesOf s .input) = [] ∨ xorFold (reconstruct (bytesOf s .input)) ≠ 0x00#8 →
    t.ok = false ∧ t.store = s.store ∧ t.out = s.out ∧ t.res = s.res ∧
      t.phase = .idle ∧ t.host = s.host ∧ t.params = s.params ∧ t.inp = s.inp

/-- Rule R200: GETMSG copies the Store into `OUT`, leaves the Store as it is, and a second one returns the same bytes. -/
def Obligations.GetmsgCopiesTheStore : Prop :=
  ∀ s : State, s.phase = .idle →
    ∃ t, exec .getmsg s = .next t ∧ bytesOf t .out = bytesOf s .store ∧ t.out.len = s.store.len ∧
      t = { s with out := t.out } ∧ BytesKeptExcept (fun sp _ => sp = .out) s t ∧
      ∃ u, exec .getmsg t = .next u ∧ bytesOf u .out = bytesOf t .out ∧ u.out.len = t.out.len

/-- The content of the Store changes in no step but a successful validation, after which it is the validated message (with
its checksum it is `RB`), and RESET, after which it is empty.  So GETMSG never returns bytes that failed validation. -/
def Obligations.StoreChangesOnlyByValidationOrReset : Prop :=
  ∀ s t : State, step s = .next t →
    t.store = s.store ∨
    (t.ok = true ∧ t.phase = .idle ∧
      bytesOf t .rb = bytesOf t .store ++ [xorFold (bytesOf t .store)] ∧ t.store.len + 1 = t.rb.len) ∨
    (s.phase = .idle ∧ (∃ tail, s.host = .reset :: tail) ∧ t.store.len = 0)

/-- Whatever operations come between, issued whole, among them failing DECODEs, a GETMSG returns what the Store held at the start
and leaves it there (rules R61, R201).  The list of the host's operations is the model's (log entry 1); operations issued stepwise
are left out here and are those of EncodeEqualsItsMicroSteps and DecodeEqualsItsMicroSteps. -/
def Obligations.GetmsgReturnsTheStoreUnchanged : Prop :=
  ∀ (s : State) (events : List HostEvent) (input : List Byte) (tail : List HostEvent),
    s.phase = .idle → s.host = events ++ .issue 0b11#2 input :: tail →
    (∀ e ∈ events, keepsStore e = true ∧ eventFits s.params e = true) →
    ∃ t : State, (Sys2Proof.core.run (events.length + 1) s : Host.Outcome State Fault Refusal) = .next t ∧
      bytesOf t .out = bytesOf s .store ∧ t.out.len = s.store.len ∧ t.store = s.store ∧ t.host = tail

/-! ## Whole-machine rules -/

/-- What no instruction writes, and the only instructions that write each of the other elements. -/
def Obligations.EachElementHasOnlyItsWriters : Prop :=
  ∀ (i : Instr) (s t : State), exec i s = .next t →
    t.params = s.params ∧ t.host = s.host ∧ t.inp = s.inp ∧
    (i ≠ .decode → i ≠ .decValidate → t.store = s.store ∧ t.ok = s.ok) ∧
    (i ≠ .checksum → t.res = s.res) ∧
    (i ≠ .encode → i ≠ .getmsg → i.format ≠ .srcbyte → i ≠ .encInit → i ≠ .encFin → t.out = s.out) ∧
    (i ≠ .decode → i.format ≠ .overhead → i.format ≠ .data → i ≠ .decInit →
      t.rb = s.rb ∧ t.cnt = s.cnt ∧ t.first = s.first ∧ t.prevFull = s.prevFull ∧ t.term = s.term ∧ t.fi = s.fi) ∧
    (i ≠ .encode → i.format ≠ .srcbyte → i ≠ .encInit → i ≠ .encFin →
      t.slot = s.slot ∧ t.wr = s.wr ∧ t.code = s.code) ∧
    (i ≠ .checksum → i ≠ .encode → i ≠ .decode → i ≠ .decValidate → t.acc = s.acc) ∧
    (i ≠ .checksum → i ≠ .encode → i ≠ .decode → i ≠ .decValidate → i.format ≠ .srcbyte → i ≠ .encInit → t.si = s.si)

/-- The values of the working registers and of `RB` between operations are never read: with any others in their place every
host operation gives the host the same results and the same Store. -/
def Obligations.HostOperationsIgnoreLeftoverWorkingState : Prop :=
  ∀ (w s : State) (i : Instr), isHostOp i = true →
    (nextState? (exec i (withWorking w s))).map visible = (nextState? (exec i s)).map visible

/-- Rule R196: the advisory maximum frame size (and the width of a realisation's indices, rule R8) is read by no step. -/
def Obligations.AdvisoryParametersAreNeverRead : Prop :=
  ∀ (s : State) (maxFrame width : Option Nat),
    step (withAdvisory maxFrame width s) = mapOutcome (withAdvisory maxFrame width) (step s)

/-- Repeating the operation CHECKSUM, DECODE or GETMSG on the same input leaves the state exactly as it is. -/
def Obligations.RepeatedOperationChangesNothing : Prop :=
  ∀ (s t : State) (i : Instr), i = .checksum ∨ i = .decode ∨ i = .getmsg → exec i s = .next t → exec i t = .next t

/-- After RESET the invariant of the instance holds. -/
def Obligations.ResetMeetsTheInvariant : Prop := State.reset.Inv ∧ State.reset.WithinCapacity

/-- Every step keeps the invariant: the buffers hold exactly their valid indices in canonical form, and an operation in progress
keeps rules R44 and R45. -/
def Obligations.StepKeepsTheInvariant : Prop :=
  ∀ s t : State, s.Inv → step s = .next t → t.Inv

/-- Every step stays within the derived capacities of `RB` and of the Store, and an operation in progress was accepted. -/
def Obligations.StepStaysWithinCapacity : Prop :=
  ∀ s t : State, s.Inv → s.WithinCapacity → step s = .next t → t.WithinCapacity

/-- Under the invariant the instance cannot hang: every step answers a next state, but for the host's issue of an operation whose
input exceeds its capacity, which is refused. -/
def Obligations.StepAlwaysAnswersWithinCapacity : Prop :=
  ∀ s : State, s.Inv →
    (∃ t, step s = .next t) ∨
    (step s = .refused .capacityExceeded ∧ s.phase = .idle ∧
      ∃ op input tail, (s.host = .issue op input :: tail ∨ s.host = .issueStepped op input :: tail) ∧
        (Config.fits s.params.nMax input.length = false ∨ Config.fits s.params.frameInMax input.length = false))

/-! ## Headline results -/

/-- ENCODE taken micro-step by micro-step ends, after its `IN_LEN + 4` steps, in exactly the state of the atomic operation (or
in the same refusal). -/
def Obligations.EncodeEqualsItsMicroSteps : Prop :=
  ∀ (s : State) (input : List Byte) (tail : List HostEvent),
    s.phase = .idle → s.host = .issueStepped 0b01#2 input :: tail →
    (Sys2Proof.core.run (input.length + 4) s : Host.Outcome State Fault Refusal) = exec .encode (present input tail s)

/-- DECODE taken micro-step by micro-step ends, after at most `IN_LEN + 4` steps, in exactly the state of the atomic operation (or
in the same refusal). -/
def Obligations.DecodeEqualsItsMicroSteps : Prop :=
  ∀ (s : State) (input : List Byte) (tail : List HostEvent),
    s.phase = .idle → s.host = .issueStepped 0b10#2 input :: tail →
    ∃ k, k ≤ input.length + 4 ∧
      (Sys2Proof.core.run k s : Host.Outcome State Fault Refusal) = exec .decode (present input tail s)

/-- Rule R176, the round-trip law: DECODE of the Frame that ENCODE made of a Payload succeeds and the Store is the Payload, whatever
the Store held before.  The clauses on `TERM`, `FI`, `CNT` and `RB` (the scan ended at the Delimiter with the whole Frame consumed
and the Extended Message rebuilt) are the sentence that rule R176 marks as derived, from rules R90 and R113. -/
def Obligations.DecodeInvertsEncode : Prop :=
  ∀ s u t : State, s.phase = .idle → exec .encode s = .next t →
    u.phase = .idle → frameFits u = true → bytesOf u .input = bytesOf t .out →
    ∃ v, exec .decode u = .next v ∧ v.ok = true ∧
      bytesOf v .store = bytesOf s .input ∧ v.store.len = s.inp.len ∧
      v.term = true ∧ v.fi = u.inp.len ∧ v.cnt = 0x00#8 ∧
      bytesOf v .rb = bytesOf s .input ++ [xorFold (bytesOf s .input)]

/-- Rule R177: the empty Payload round-trips through the Frame 01 01 00. -/
def Obligations.EmptyPayloadRoundTrips : Prop :=
  (∀ s : State, s.phase = .idle → payloadFits s = true → s.inp.len = 0 →
    ∃ t, exec .encode s = .next t ∧ bytesOf t .out = [0x01#8, 0x01#8, 0x00#8] ∧ t.out.len = 3) ∧
  ∀ s : State, s.phase = .idle → frameFits s = true → bytesOf s .input = [0x01#8, 0x01#8, 0x00#8] →
    ∃ t, exec .decode s = .next t ∧ t.ok = true ∧ bytesOf t .rb = [0x00#8] ∧ bytesOf t .store = [] ∧ t.store.len = 0

/-- Rule R90: framing is one-to-one from byte sequences onto the canonical Frames and the scan is its inverse on them; the
outputs of ENCODE are exactly the canonical Frames other than 01 00 whose rebuilt sequence ends in the fold of the rest. -/
def Obligations.FramingIsABijectionOntoCanonicalFrames : Prop :=
  (∀ x : List Byte, CanonicalFrame (frameOf x) ∧ reconstruct (frameOf x) = x) ∧
  (∀ f : List Byte, CanonicalFrame f → frameOf (reconstruct f) = f) ∧
  ∀ f : List Byte,
    (∃ s t : State, s.phase = .idle ∧ exec .encode s = .next t ∧ bytesOf t .out = f) ↔
      CanonicalFrame f ∧ f ≠ [0x01#8, 0x00#8] ∧
        (reconstruct f).getLast? = some (xorFold (reconstruct f).dropLast)

/-- A change of one byte at a data position of an ENCODE output, to any other value (0x00 too), is detected with certainty:
DECODE fails and leaves the Store. -/
def Obligations.OneChangedDataByteIsDetected : Prop :=
  ∀ (s t u : State) (j : Nat) (v : Byte), s.phase = .idle → exec .encode s = .next t →
    isDataPosition t.out.len (bytesOf t .out) j = true → v ≠ memRead t .out j →
    u.phase = .idle → frameFits u = true → bytesOf u .input = (bytesOf t .out).set j v →
    ∃ w, exec .decode u = .next w ∧ w.ok = false ∧ w.store = u.store

/-- A known false acceptance: with the Overhead byte of the last block raised by one, DECODE of an ENCODE output takes the
Delimiter for data and succeeds, delivering the checksum byte as payload. -/
def Obligations.RaisedLastOverheadIsAccepted : Prop :=
  ∀ (s t u : State) (blocks : List Block) (last : Block), s.phase = .idle → exec .encode s = .next t →
    (blocks ++ [last]).all blockWf = true → bytesOf t .out = frameBytes (blocks ++ [last]) →
    u.phase = .idle → frameFits u = true →
    bytesOf u .input = frameBytes (blocks ++ [⟨last.overhead + 1, last.data⟩]) →
    ∃ w, exec .decode u = .next w ∧ w.ok = true ∧ w.term = false ∧
      bytesOf w .store = bytesOf s .input ++ [xorFold (bytesOf s .input)]

/-- DECODE accepts an ENCODE output without its Delimiter too, with the same message; and a well-formed Frame whose last block
is full is rebuilt to the same bytes as with an empty block before the Delimiter. -/
def Obligations.DecodeAcceptsMoreThanEncodeProduces : Prop :=
  (∀ s t u : State, s.phase = .idle → exec .encode s = .next t →
    u.phase = .idle → frameFits u = true → bytesOf u .input = (bytesOf t .out).dropLast →
    ∃ w, exec .decode u = .next w ∧ w.ok = true ∧ w.term = false ∧ bytesOf w .store = bytesOf s .input) ∧
  ∀ (blocks : List Block) (last : Block), (blocks ++ [last]).all blockWf = true → last.overhead = 0xFF#8 →
    reconstruct (frameBytes (blocks ++ [last])) = reconstruct (frameBytes (blocks ++ [last, ⟨0x01, []⟩]))

/-- The message of a successful DECODE is what a later GETMSG returns, whatever operations come between, issued whole, that are no
successful DECODE (rule R61 point 2, rule R201).  The input's verdict and message are those of rules R173 and R174; the list of the
host's operations is the model's (log entry 1). -/
def Obligations.GetmsgReturnsTheMessageOfTheLastSuccess : Prop :=
  ∀ (s : State) (f : List Byte) (events : List HostEvent) (input : List Byte) (tail : List HostEvent),
    s.phase = .idle → s.host = .issue 0b10#2 f :: (events ++ .issue 0b11#2 input :: tail) →
    Config.fits s.params.frameInMax f.length = true → accepts (reconstruct f) = true →
    (∀ e ∈ events, keepsStore e = true ∧ eventFits s.params e = true) →
    ∃ u t : State, step s = .next u ∧ u.ok = true ∧
      (Sys2Proof.core.run (events.length + 1) u : Host.Outcome State Fault Refusal) = .next t ∧
      bytesOf t .out = (reconstruct f).dropLast ∧ t.out.len + 1 = (reconstruct f).length ∧ t.store = u.store ∧ t.host = tail
end

