-- ==== Sys2Proof/Laws/Memory.lean ====
section
/-! SUPPORT. The laws of byte memories and buffers: what is read after a write, a reservation and a change of length, the
canonical form, and byte sequences laid out and read back. -/

namespace Sys2Proof.Machine

open Sys2Proof

namespace Memory

variable (m : Memory) (i j n : Nat) (v : Byte)

/-! ## Reading after an operation -/

@[simp] theorem read?_nil : read? ([] : Memory) i = none := rfl

@[simp] theorem read?_put_self : read? (put m i v) i = some v := by
  induction m with
  | nil => simp [put, read?]
  | cons c m ih =>
    simp only [put]
    split
    · simp [read?]
    · split
      · simp [read?]
      · have hne : c.1 ≠ i := by omega
        simp [read?, hne, ih]

theorem read?_put_other {i j : Nat} (h : j ≠ i) : read? (put m i v) j = read? m j := by
  have h' : i ≠ j := fun e => h e.symm
  induction m with
  | nil => simp [put, read?, h']
  | cons c m ih =>
    simp only [put]
    split
    · simp [read?, h']
    · split
      · rename_i hic
        have hc : c.1 ≠ j := by omega
        simp [read?, h', hc]
      · simp [read?, ih]

/-- One law for both cases of a read after a write. -/
theorem read?_put : read? (put m i v) j = if j = i then some v else read? m j := by
  split
  · rename_i h; subst h; simp
  · rename_i h; exact read?_put_other m v h

/-- A filter on indices keeps the reads it accepts and leaves nothing at the others. -/
theorem read?_filter (p : Nat → Bool) :
    read? (m.filter fun c => p c.1) j = if p j then read? m j else none := by
  induction m with
  | nil => simp
  | cons c m ih =>
    by_cases hc : p c.1 = true
    · by_cases hj : c.1 = j
      · subst hj; simp [hc, read?]
      · simp [hc, read?, hj, ih]
    · by_cases hj : c.1 = j
      · subst hj; simpa [hc] using ih
      · simp [hc, read?, hj, ih]

theorem read?_forget : read? (forget m i) j = if j = i then none else read? m j := by
  rw [forget, read?_filter m j fun k => k != i]
  by_cases h : j = i <;> simp [h]

theorem read?_truncate : read? (truncate m n) j = if j < n then read? m j else none := by
  rw [truncate, read?_filter m j fun k => decide (k < n)]
  by_cases h : j < n <;> simp [h]

theorem read?_ofBytes (bs : List Byte) :
    read? (ofBytes i bs) j = if i ≤ j then bs[j - i]? else none := by
  induction bs generalizing i with
  | nil => simp [ofBytes]
  | cons b bs ih =>
    simp only [ofBytes, read?]
    by_cases h : i = j
    · subst h; simp
    · rw [if_neg h, ih]
      by_cases hij : i ≤ j
      · have hs : j - i = (j - (i + 1)) + 1 := by omega
        rw [if_pos hij, if_pos (by omega), hs, List.getElem?_cons_succ]
      · rw [if_neg hij, if_neg (by omega)]

/-! ## The canonical form is kept -/

theorem mem_fst_put (k : Nat) : k ∈ (put m i v).map Prod.fst ↔ k = i ∨ k ∈ m.map Prod.fst := by
  induction m with
  | nil => simp [put]
  | cons c m ih =>
    simp only [put]
    split
    · simp
    · split
      · rename_i h; simp [h]
      · simp only [List.map_cons, List.mem_cons, ih]; tauto

theorem put_wf {m : Memory} (h : wf m) (i : Nat) (v : Byte) : wf (put m i v) := by
  induction m with
  | nil => simp [put, wf]
  | cons c m ih =>
    simp only [wf, List.map_cons, List.pairwise_cons] at h
    simp only [put]
    split
    · rename_i hlt
      simp only [wf, List.map_cons, List.pairwise_cons, List.mem_cons]
      refine ⟨?_, h⟩
      rintro k (rfl | hk)
      · exact hlt
      · exact hlt.trans (h.1 k hk)
    · split
      · rename_i he
        simp only [wf, List.map_cons, List.pairwise_cons]
        exact ⟨fun k hk => he ▸ h.1 k hk, h.2⟩
      · simp only [wf, List.map_cons, List.pairwise_cons]
        refine ⟨fun k hk => ?_, ih h.2⟩
        rcases (mem_fst_put m i v k).1 hk with rfl | hk
        · omega
        · exact h.1 k hk

theorem filter_wf {m : Memory} (h : wf m) (p : Host.Cell → Bool) : wf (m.filter p) :=
  List.Pairwise.sublist (List.filter_sublist.map Prod.fst) h

theorem forget_wf {m : Memory} (h : wf m) (i : Nat) : wf (forget m i) := filter_wf h _

theorem truncate_wf {m : Memory} (h : wf m) (n : Nat) : wf (truncate m n) := filter_wf h _

theorem fst_ofBytes (bs : List Byte) : (ofBytes i bs).map Prod.fst = List.range' i bs.length := by
  induction bs generalizing i with
  | nil => rfl
  | cons b bs ih => simp [ofBytes, ih, List.range'_succ]

theorem ofBytes_wf (bs : List Byte) : wf (ofBytes i bs) := by
  rw [wf, fst_ofBytes]; exact List.pairwise_lt_range'

theorem mem_fst_iff : j ∈ m.map Prod.fst ↔ read? m j ≠ none := by
  induction m with
  | nil => simp
  | cons c m ih =>
    by_cases h : c.1 = j
    · simp [read?, h]
    · rw [List.map_cons, List.mem_cons, ih]
      simpa [read?, h] using fun e : j = c.1 => absurd e.symm h

end Memory

namespace Buffer

variable (sp : Space) (b : Buffer) (i j n : Nat) (v : Byte)

theorem read_write : (b.write i v).read sp j = if j = i then v else b.read sp j := by
  simp only [read, write, Memory.read?_put]; split <;> rfl

theorem read_append : (b.append v).read sp j = if j = b.len then v else b.read sp j := by
  simp only [read, append, Memory.read?_put]; split <;> rfl

theorem read_reserve {i j : Nat} (h : j ≠ i) : (b.reserve i).read sp j = b.read sp j := by
  simp [read, reserve, Memory.read?_forget, h]

theorem read_setLen {n j : Nat} (h : j < n) : (b.setLen n).read sp j = b.read sp j := by
  simp [read, setLen, Memory.read?_truncate, h]

theorem read_ofBytes (bs : List Byte) {j : Nat} (h : j < bs.length) : (ofBytes bs).read sp j = bs[j] := by
  simp [read, ofBytes, Memory.read?_ofBytes, h]

@[simp] theorem append_len : (b.append v).len = b.len + 1 := rfl
@[simp] theorem write_len : (b.write i v).len = b.len := rfl
@[simp] theorem reserve_len : (b.reserve i).len = b.len := rfl
@[simp] theorem setLen_len : (b.setLen n).len = n := rfl
@[simp] theorem ofBytes_len (bs : List Byte) : (ofBytes bs).len = bs.length := rfl
@[simp] theorem empty_len : Buffer.empty.len = 0 := rfl

@[simp] theorem firstBytes_length : (b.firstBytes sp n).length = n := by simp [firstBytes]

theorem firstBytes_succ : b.firstBytes sp (n + 1) = b.firstBytes sp n ++ [b.read sp n] := by
  simp [firstBytes, List.range_succ]

theorem firstBytes_congr {b c : Buffer} (n : Nat) (h : ∀ k, k < n → b.read sp k = c.read sp k) :
    b.firstBytes sp n = c.firstBytes sp n :=
  List.map_congr_left fun k hk => h k (List.mem_range.1 hk)

/-- An append shows in the bytes as an append (rule R14). -/
theorem firstBytes_append :
    (b.append v).firstBytes sp (b.append v).len = b.firstBytes sp b.len ++ [v] := by
  rw [append_len, firstBytes_succ, read_append, if_pos rfl]
  congr 1
  exact firstBytes_congr sp b.len fun k hk => by rw [read_append, if_neg (by omega)]

/-- A byte sequence laid out in a buffer is read back. -/
theorem firstBytes_ofBytes (bs : List Byte) : (ofBytes bs).firstBytes sp (ofBytes bs).len = bs := by
  apply List.ext_getElem
  · simp
  · intro k h1 h2
    simp only [firstBytes, List.getElem_map, List.getElem_range]
    exact read_ofBytes sp bs h2

theorem ofBytes_full (bs : List Byte) : (ofBytes bs).full := by
  simp [full, ofBytes, Memory.fst_ofBytes, List.range_eq_range']

theorem empty_full : Buffer.empty.full := rfl

theorem full_wf {b : Buffer} (h : b.full) : Memory.wf b.cells := by
  rw [Memory.wf, h]; exact List.pairwise_lt_range

/-- A rising list of indices that has exactly the indices below `n` is the range. -/
theorem full_of_wf {b : Buffer} (hw : Memory.wf b.cells)
    (h : ∀ k, k ∈ b.cells.map Prod.fst ↔ k < b.len) : b.full := by
  apply List.Perm.eq_of_pairwise (le := (· < ·)) _ hw List.pairwise_lt_range
  · refine (List.perm_ext_iff_of_nodup (hw.imp fun h => Nat.ne_of_lt h) List.nodup_range).2 fun k => ?_
    rw [h, List.mem_range]
  · intro x y _ _ h1 h2; omega

theorem append_full {b : Buffer} (h : b.full) (v : Byte) : (b.append v).full := by
  apply full_of_wf (Memory.put_wf (full_wf h) _ _)
  intro k
  rw [append, Memory.mem_fst_put, show b.cells.map Prod.fst = List.range b.len from h, List.mem_range]
  simp only []
  omega

end Buffer

/-! ## Reads and byte sequences of a state -/

variable (s : State)

@[simp] theorem buf_input : s.buf .input = s.inp := rfl
@[simp] theorem buf_out : s.buf .out = s.out := rfl
@[simp] theorem buf_rb : s.buf .rb = s.rb := rfl
@[simp] theorem buf_store : s.buf .store = s.store := rfl

@[simp] theorem bytesOf_length (sp : Space) : (bytesOf s sp).length = (s.buf sp).len := by simp [bytesOf, bufLen]

theorem bytesOf_getElem (sp : Space) {i : Nat} (h : i < (bytesOf s sp).length) :
    (bytesOf s sp)[i] = memRead s sp i := by
  simp [bytesOf, Buffer.firstBytes, memRead]

theorem receivedMessage_eq : receivedMessage s = (bytesOf s .rb).dropLast := by
  unfold receivedMessage bytesOf bufLen
  change s.rb.firstBytes .rb (s.rb.len - 1) = (s.rb.firstBytes .rb s.rb.len).dropLast
  rcases s.rb.len with _ | n
  · rfl
  · simp [Buffer.firstBytes_succ]

end Sys2Proof.Machine
end

