-- ==== Sys2Proof/Laws/State.lean ====
section
/-! SUPPORT. One lemma per field per update of a state, true by unfolding the update once; and the record forms of the updates
that run a fold or make a test first. -/

namespace Sys2Proof.Machine

open Sys2Proof

variable (s : State)

/-! ## takeResult -/

@[simp] theorem takeResult_params : (takeResult s).params = s.params := rfl
@[simp] theorem takeResult_host : (takeResult s).host = s.host := rfl
@[simp] theorem takeResult_phase : (takeResult s).phase = s.phase := rfl
@[simp] theorem takeResult_inp : (takeResult s).inp = s.inp := rfl
@[simp] theorem takeResult_out : (takeResult s).out = s.out := rfl
@[simp] theorem takeResult_rb : (takeResult s).rb = s.rb := rfl
@[simp] theorem takeResult_store : (takeResult s).store = s.store := rfl
@[simp] theorem takeResult_acc : (takeResult s).acc = s.acc := rfl
@[simp] theorem takeResult_code : (takeResult s).code = s.code := rfl
@[simp] theorem takeResult_slot : (takeResult s).slot = s.slot := rfl
@[simp] theorem takeResult_wr : (takeResult s).wr = s.wr := rfl
@[simp] theorem takeResult_si : (takeResult s).si = s.si := rfl
@[simp] theorem takeResult_cnt : (takeResult s).cnt = s.cnt := rfl
@[simp] theorem takeResult_first : (takeResult s).first = s.first := rfl
@[simp] theorem takeResult_prevFull : (takeResult s).prevFull = s.prevFull := rfl
@[simp] theorem takeResult_term : (takeResult s).term = s.term := rfl
@[simp] theorem takeResult_fi : (takeResult s).fi = s.fi := rfl
@[simp] theorem takeResult_ok : (takeResult s).ok = s.ok := rfl
@[simp] theorem takeResult_res : (takeResult s).res = s.acc := rfl

/-! ## raiseDecodeFail -/

@[simp] theorem raiseDecodeFail_params (c : FailCause) : (raiseDecodeFail c s).params = s.params := rfl
@[simp] theorem raiseDecodeFail_host (c : FailCause) : (raiseDecodeFail c s).host = s.host := rfl
@[simp] theorem raiseDecodeFail_phase (c : FailCause) : (raiseDecodeFail c s).phase = .idle := rfl
@[simp] theorem raiseDecodeFail_inp (c : FailCause) : (raiseDecodeFail c s).inp = s.inp := rfl
@[simp] theorem raiseDecodeFail_out (c : FailCause) : (raiseDecodeFail c s).out = s.out := rfl
@[simp] theorem raiseDecodeFail_rb (c : FailCause) : (raiseDecodeFail c s).rb = s.rb := rfl
@[simp] theorem raiseDecodeFail_store (c : FailCause) : (raiseDecodeFail c s).store = s.store := rfl
@[simp] theorem raiseDecodeFail_acc (c : FailCause) : (raiseDecodeFail c s).acc = s.acc := rfl
@[simp] theorem raiseDecodeFail_code (c : FailCause) : (raiseDecodeFail c s).code = s.code := rfl
@[simp] theorem raiseDecodeFail_slot (c : FailCause) : (raiseDecodeFail c s).slot = s.slot := rfl
@[simp] theorem raiseDecodeFail_wr (c : FailCause) : (raiseDecodeFail c s).wr = s.wr := rfl
@[simp] theorem raiseDecodeFail_si (c : FailCause) : (raiseDecodeFail c s).si = s.si := rfl
@[simp] theorem raiseDecodeFail_cnt (c : FailCause) : (raiseDecodeFail c s).cnt = s.cnt := rfl
@[simp] theorem raiseDecodeFail_first (c : FailCause) : (raiseDecodeFail c s).first = s.first := rfl
@[simp] theorem raiseDecodeFail_prevFull (c : FailCause) : (raiseDecodeFail c s).prevFull = s.prevFull := rfl
@[simp] theorem raiseDecodeFail_term (c : FailCause) : (raiseDecodeFail c s).term = s.term := rfl
@[simp] theorem raiseDecodeFail_fi (c : FailCause) : (raiseDecodeFail c s).fi = s.fi := rfl
@[simp] theorem raiseDecodeFail_ok (c : FailCause) : (raiseDecodeFail c s).ok = false := rfl
@[simp] theorem raiseDecodeFail_res (c : FailCause) : (raiseDecodeFail c s).res = s.res := rfl

/-! ## copyStoreOut -/

@[simp] theorem copyStoreOut_params : (copyStoreOut s).params = s.params := rfl
@[simp] theorem copyStoreOut_host : (copyStoreOut s).host = s.host := rfl
@[simp] theorem copyStoreOut_phase : (copyStoreOut s).phase = s.phase := rfl
@[simp] theorem copyStoreOut_inp : (copyStoreOut s).inp = s.inp := rfl
@[simp] theorem copyStoreOut_out : (copyStoreOut s).out = Buffer.ofBytes (bytesOf s .store) := rfl
@[simp] theorem copyStoreOut_rb : (copyStoreOut s).rb = s.rb := rfl
@[simp] theorem copyStoreOut_store : (copyStoreOut s).store = s.store := rfl
@[simp] theorem copyStoreOut_acc : (copyStoreOut s).acc = s.acc := rfl
@[simp] theorem copyStoreOut_code : (copyStoreOut s).code = s.code := rfl
@[simp] theorem copyStoreOut_slot : (copyStoreOut s).slot = s.slot := rfl
@[simp] theorem copyStoreOut_wr : (copyStoreOut s).wr = s.wr := rfl
@[simp] theorem copyStoreOut_si : (copyStoreOut s).si = s.si := rfl
@[simp] theorem copyStoreOut_cnt : (copyStoreOut s).cnt = s.cnt := rfl
@[simp] theorem copyStoreOut_first : (copyStoreOut s).first = s.first := rfl
@[simp] theorem copyStoreOut_prevFull : (copyStoreOut s).prevFull = s.prevFull := rfl
@[simp] theorem copyStoreOut_term : (copyStoreOut s).term = s.term := rfl
@[simp] theorem copyStoreOut_fi : (copyStoreOut s).fi = s.fi := rfl
@[simp] theorem copyStoreOut_ok : (copyStoreOut s).ok = s.ok := rfl
@[simp] theorem copyStoreOut_res : (copyStoreOut s).res = s.res := rfl

/-! ## present -/

@[simp] theorem present_params (input : List Byte) (rest : List HostEvent) : (present input rest s).params = s.params := rfl
@[simp] theorem present_host (input : List Byte) (rest : List HostEvent) : (present input rest s).host = rest := rfl
@[simp] theorem present_phase (input : List Byte) (rest : List HostEvent) : (present input rest s).phase = s.phase := rfl
@[simp] theorem present_inp (input : List Byte) (rest : List HostEvent) : (present input rest s).inp = Buffer.ofBytes input := rfl
@[simp] theorem present_out (input : List Byte) (rest : List HostEvent) : (present input rest s).out = s.out := rfl
@[simp] theorem present_rb (input : List Byte) (rest : List HostEvent) : (present input rest s).rb = s.rb := rfl
@[simp] theorem present_store (input : List Byte) (rest : List HostEvent) : (present input rest s).store = s.store := rfl
@[simp] theorem present_acc (input : List Byte) (rest : List HostEvent) : (present input rest s).acc = s.acc := rfl
@[simp] theorem present_code (input : List Byte) (rest : List HostEvent) : (present input rest s).code = s.code := rfl
@[simp] theorem present_slot (input : List Byte) (rest : List HostEvent) : (present input rest s).slot = s.slot := rfl
@[simp] theorem present_wr (input : List Byte) (rest : List HostEvent) : (present input rest s).wr = s.wr := rfl
@[simp] theorem present_si (input : List Byte) (rest : List HostEvent) : (present input rest s).si = s.si := rfl
@[simp] theorem present_cnt (input : List Byte) (rest : List HostEvent) : (present input rest s).cnt = s.cnt := rfl
@[simp] theorem present_first (input : List Byte) (rest : List HostEvent) : (present input rest s).first = s.first := rfl
@[simp] theorem present_prevFull (input : List Byte) (rest : List HostEvent) : (present input rest s).prevFull = s.prevFull := rfl
@[simp] theorem present_term (input : List Byte) (rest : List HostEvent) : (present input rest s).term = s.term := rfl
@[simp] theorem present_fi (input : List Byte) (rest : List HostEvent) : (present input rest s).fi = s.fi := rfl
@[simp] theorem present_ok (input : List Byte) (rest : List HostEvent) : (present input rest s).ok = s.ok := rfl
@[simp] theorem present_res (input : List Byte) (rest : List HostEvent) : (present input rest s).res = s.res := rfl

/-! ## closeBlock -/

@[simp] theorem closeBlock_params : (closeBlock s).params = s.params := rfl
@[simp] theorem closeBlock_host : (closeBlock s).host = s.host := rfl
@[simp] theorem closeBlock_phase : (closeBlock s).phase = s.phase := rfl
@[simp] theorem closeBlock_inp : (closeBlock s).inp = s.inp := rfl
@[simp] theorem closeBlock_out : (closeBlock s).out = s.out.write s.slot s.code := rfl
@[simp] theorem closeBlock_rb : (closeBlock s).rb = s.rb := rfl
@[simp] theorem closeBlock_store : (closeBlock s).store = s.store := rfl
@[simp] theorem closeBlock_acc : (closeBlock s).acc = s.acc := rfl
@[simp] theorem closeBlock_code : (closeBlock s).code = s.code := rfl
@[simp] theorem closeBlock_slot : (closeBlock s).slot = s.slot := rfl
@[simp] theorem closeBlock_wr : (closeBlock s).wr = s.wr := rfl
@[simp] theorem closeBlock_si : (closeBlock s).si = s.si := rfl
@[simp] theorem closeBlock_cnt : (closeBlock s).cnt = s.cnt := rfl
@[simp] theorem closeBlock_first : (closeBlock s).first = s.first := rfl
@[simp] theorem closeBlock_prevFull : (closeBlock s).prevFull = s.prevFull := rfl
@[simp] theorem closeBlock_term : (closeBlock s).term = s.term := rfl
@[simp] theorem closeBlock_fi : (closeBlock s).fi = s.fi := rfl
@[simp] theorem closeBlock_ok : (closeBlock s).ok = s.ok := rfl
@[simp] theorem closeBlock_res : (closeBlock s).res = s.res := rfl

/-! ## openBlock -/

@[simp] theorem openBlock_params : (openBlock s).params = s.params := rfl
@[simp] theorem openBlock_host : (openBlock s).host = s.host := rfl
@[simp] theorem openBlock_phase : (openBlock s).phase = s.phase := rfl
@[simp] theorem openBlock_inp : (openBlock s).inp = s.inp := rfl
@[simp] theorem openBlock_out : (openBlock s).out = s.out.reserve s.wr := rfl
@[simp] theorem openBlock_rb : (openBlock s).rb = s.rb := rfl
@[simp] theorem openBlock_store : (openBlock s).store = s.store := rfl
@[simp] theorem openBlock_acc : (openBlock s).acc = s.acc := rfl
@[simp] theorem openBlock_code : (openBlock s).code = 0x01 := rfl
@[simp] theorem openBlock_slot : (openBlock s).slot = s.wr := rfl
@[simp] theorem openBlock_wr : (openBlock s).wr = s.wr + 1 := rfl
@[simp] theorem openBlock_si : (openBlock s).si = s.si := rfl
@[simp] theorem openBlock_cnt : (openBlock s).cnt = s.cnt := rfl
@[simp] theorem openBlock_first : (openBlock s).first = s.first := rfl
@[simp] theorem openBlock_prevFull : (openBlock s).prevFull = s.prevFull := rfl
@[simp] theorem openBlock_term : (openBlock s).term = s.term := rfl
@[simp] theorem openBlock_fi : (openBlock s).fi = s.fi := rfl
@[simp] theorem openBlock_ok : (openBlock s).ok = s.ok := rfl
@[simp] theorem openBlock_res : (openBlock s).res = s.res := rfl

/-! ## emitByte -/

@[simp] theorem emitByte_params (b : Byte) : (emitByte b s).params = s.params := rfl
@[simp] theorem emitByte_host (b : Byte) : (emitByte b s).host = s.host := rfl
@[simp] theorem emitByte_phase (b : Byte) : (emitByte b s).phase = s.phase := rfl
@[simp] theorem emitByte_inp (b : Byte) : (emitByte b s).inp = s.inp := rfl
@[simp] theorem emitByte_out (b : Byte) : (emitByte b s).out = s.out.write s.wr b := rfl
@[simp] theorem emitByte_rb (b : Byte) : (emitByte b s).rb = s.rb := rfl
@[simp] theorem emitByte_store (b : Byte) : (emitByte b s).store = s.store := rfl
@[simp] theorem emitByte_acc (b : Byte) : (emitByte b s).acc = s.acc := rfl
@[simp] theorem emitByte_code (b : Byte) : (emitByte b s).code = s.code + 1 := rfl
@[simp] theorem emitByte_slot (b : Byte) : (emitByte b s).slot = s.slot := rfl
@[simp] theorem emitByte_wr (b : Byte) : (emitByte b s).wr = s.wr + 1 := rfl
@[simp] theorem emitByte_si (b : Byte) : (emitByte b s).si = s.si := rfl
@[simp] theorem emitByte_cnt (b : Byte) : (emitByte b s).cnt = s.cnt := rfl
@[simp] theorem emitByte_first (b : Byte) : (emitByte b s).first = s.first := rfl
@[simp] theorem emitByte_prevFull (b : Byte) : (emitByte b s).prevFull = s.prevFull := rfl
@[simp] theorem emitByte_term (b : Byte) : (emitByte b s).term = s.term := rfl
@[simp] theorem emitByte_fi (b : Byte) : (emitByte b s).fi = s.fi := rfl
@[simp] theorem emitByte_ok (b : Byte) : (emitByte b s).ok = s.ok := rfl
@[simp] theorem emitByte_res (b : Byte) : (emitByte b s).res = s.res := rfl

/-! ## advanceSource -/

@[simp] theorem advanceSource_params : (advanceSource s).params = s.params := rfl
@[simp] theorem advanceSource_host : (advanceSource s).host = s.host := rfl
@[simp] theorem advanceSource_phase : (advanceSource s).phase = s.phase := rfl
@[simp] theorem advanceSource_inp : (advanceSource s).inp = s.inp := rfl
@[simp] theorem advanceSource_out : (advanceSource s).out = s.out := rfl
@[simp] theorem advanceSource_rb : (advanceSource s).rb = s.rb := rfl
@[simp] theorem advanceSource_store : (advanceSource s).store = s.store := rfl
@[simp] theorem advanceSource_acc : (advanceSource s).acc = s.acc := rfl
@[simp] theorem advanceSource_code : (advanceSource s).code = s.code := rfl
@[simp] theorem advanceSource_slot : (advanceSource s).slot = s.slot := rfl
@[simp] theorem advanceSource_wr : (advanceSource s).wr = s.wr := rfl
@[simp] theorem advanceSource_si : (advanceSource s).si = s.si + 1 := rfl
@[simp] theorem advanceSource_cnt : (advanceSource s).cnt = s.cnt := rfl
@[simp] theorem advanceSource_first : (advanceSource s).first = s.first := rfl
@[simp] theorem advanceSource_prevFull : (advanceSource s).prevFull = s.prevFull := rfl
@[simp] theorem advanceSource_term : (advanceSource s).term = s.term := rfl
@[simp] theorem advanceSource_fi : (advanceSource s).fi = s.fi := rfl
@[simp] theorem advanceSource_ok : (advanceSource s).ok = s.ok := rfl
@[simp] theorem advanceSource_res : (advanceSource s).res = s.res := rfl

/-! ## encInitEffect -/

@[simp] theorem encInitEffect_params : (encInitEffect s).params = s.params := rfl
@[simp] theorem encInitEffect_host : (encInitEffect s).host = s.host := rfl
@[simp] theorem encInitEffect_phase : (encInitEffect s).phase = .encScan := rfl
@[simp] theorem encInitEffect_inp : (encInitEffect s).inp = s.inp := rfl
@[simp] theorem encInitEffect_out : (encInitEffect s).out = s.out.reserve 0 := rfl
@[simp] theorem encInitEffect_rb : (encInitEffect s).rb = s.rb := rfl
@[simp] theorem encInitEffect_store : (encInitEffect s).store = s.store := rfl
@[simp] theorem encInitEffect_acc : (encInitEffect s).acc = s.acc := rfl
@[simp] theorem encInitEffect_code : (encInitEffect s).code = 0x01 := rfl
@[simp] theorem encInitEffect_slot : (encInitEffect s).slot = 0 := rfl
@[simp] theorem encInitEffect_wr : (encInitEffect s).wr = 1 := rfl
@[simp] theorem encInitEffect_si : (encInitEffect s).si = 0 := rfl
@[simp] theorem encInitEffect_cnt : (encInitEffect s).cnt = s.cnt := rfl
@[simp] theorem encInitEffect_first : (encInitEffect s).first = s.first := rfl
@[simp] theorem encInitEffect_prevFull : (encInitEffect s).prevFull = s.prevFull := rfl
@[simp] theorem encInitEffect_term : (encInitEffect s).term = s.term := rfl
@[simp] theorem encInitEffect_fi : (encInitEffect s).fi = s.fi := rfl
@[simp] theorem encInitEffect_ok : (encInitEffect s).ok = s.ok := rfl
@[simp] theorem encInitEffect_res : (encInitEffect s).res = s.res := rfl

/-! ## encFinEffect -/

@[simp] theorem encFinEffect_params : (encFinEffect s).params = s.params := rfl
@[simp] theorem encFinEffect_host : (encFinEffect s).host = s.host := rfl
@[simp] theorem encFinEffect_phase : (encFinEffect s).phase = .idle := rfl
@[simp] theorem encFinEffect_inp : (encFinEffect s).inp = s.inp := rfl
@[simp] theorem encFinEffect_out : (encFinEffect s).out = ((s.out.write s.slot s.code).write s.wr Config.delim).setLen (s.wr + 1) := rfl
@[simp] theorem encFinEffect_rb : (encFinEffect s).rb = s.rb := rfl
@[simp] theorem encFinEffect_store : (encFinEffect s).store = s.store := rfl
@[simp] theorem encFinEffect_acc : (encFinEffect s).acc = s.acc := rfl
@[simp] theorem encFinEffect_code : (encFinEffect s).code = s.code := rfl
@[simp] theorem encFinEffect_slot : (encFinEffect s).slot = s.slot := rfl
@[simp] theorem encFinEffect_wr : (encFinEffect s).wr = s.wr + 1 := rfl
@[simp] theorem encFinEffect_si : (encFinEffect s).si = s.si := rfl
@[simp] theorem encFinEffect_cnt : (encFinEffect s).cnt = s.cnt := rfl
@[simp] theorem encFinEffect_first : (encFinEffect s).first = s.first := rfl
@[simp] theorem encFinEffect_prevFull : (encFinEffect s).prevFull = s.prevFull := rfl
@[simp] theorem encFinEffect_term : (encFinEffect s).term = s.term := rfl
@[simp] theorem encFinEffect_fi : (encFinEffect s).fi = s.fi := rfl
@[simp] theorem encFinEffect_ok : (encFinEffect s).ok = s.ok := rfl
@[simp] theorem encFinEffect_res : (encFinEffect s).res = s.res := rfl

/-! ## beginDecode -/

@[simp] theorem beginDecode_params : (beginDecode s).params = s.params := rfl
@[simp] theorem beginDecode_host : (beginDecode s).host = s.host := rfl
@[simp] theorem beginDecode_phase : (beginDecode s).phase = .decInit := rfl
@[simp] theorem beginDecode_inp : (beginDecode s).inp = s.inp := rfl
@[simp] theorem beginDecode_out : (beginDecode s).out = s.out := rfl
@[simp] theorem beginDecode_rb : (beginDecode s).rb = s.rb := rfl
@[simp] theorem beginDecode_store : (beginDecode s).store = s.store := rfl
@[simp] theorem beginDecode_acc : (beginDecode s).acc = s.acc := rfl
@[simp] theorem beginDecode_code : (beginDecode s).code = s.code := rfl
@[simp] theorem beginDecode_slot : (beginDecode s).slot = s.slot := rfl
@[simp] theorem beginDecode_wr : (beginDecode s).wr = s.wr := rfl
@[simp] theorem beginDecode_si : (beginDecode s).si = s.si := rfl
@[simp] theorem beginDecode_cnt : (beginDecode s).cnt = s.cnt := rfl
@[simp] theorem beginDecode_first : (beginDecode s).first = s.first := rfl
@[simp] theorem beginDecode_prevFull : (beginDecode s).prevFull = s.prevFull := rfl
@[simp] theorem beginDecode_term : (beginDecode s).term = s.term := rfl
@[simp] theorem beginDecode_fi : (beginDecode s).fi = s.fi := rfl
@[simp] theorem beginDecode_ok : (beginDecode s).ok = s.ok := rfl
@[simp] theorem beginDecode_res : (beginDecode s).res = s.res := rfl

/-! ## decInitEffect -/

@[simp] theorem decInitEffect_params : (decInitEffect s).params = s.params := rfl
@[simp] theorem decInitEffect_host : (decInitEffect s).host = s.host := rfl
@[simp] theorem decInitEffect_phase : (decInitEffect s).phase = .decScan := rfl
@[simp] theorem decInitEffect_inp : (decInitEffect s).inp = s.inp := rfl
@[simp] theorem decInitEffect_out : (decInitEffect s).out = s.out := rfl
@[simp] theorem decInitEffect_rb : (decInitEffect s).rb = Buffer.empty := rfl
@[simp] theorem decInitEffect_store : (decInitEffect s).store = s.store := rfl
@[simp] theorem decInitEffect_acc : (decInitEffect s).acc = s.acc := rfl
@[simp] theorem decInitEffect_code : (decInitEffect s).code = s.code := rfl
@[simp] theorem decInitEffect_slot : (decInitEffect s).slot = s.slot := rfl
@[simp] theorem decInitEffect_wr : (decInitEffect s).wr = s.wr := rfl
@[simp] theorem decInitEffect_si : (decInitEffect s).si = s.si := rfl
@[simp] theorem decInitEffect_cnt : (decInitEffect s).cnt = 0x00 := rfl
@[simp] theorem decInitEffect_first : (decInitEffect s).first = true := rfl
@[simp] theorem decInitEffect_prevFull : (decInitEffect s).prevFull = false := rfl
@[simp] theorem decInitEffect_term : (decInitEffect s).term = false := rfl
@[simp] theorem decInitEffect_fi : (decInitEffect s).fi = 0 := rfl
@[simp] theorem decInitEffect_ok : (decInitEffect s).ok = s.ok := rfl
@[simp] theorem decInitEffect_res : (decInitEffect s).res = s.res := rfl

/-! ## ovhEndEffect -/

@[simp] theorem ovhEndEffect_params : (ovhEndEffect s).params = s.params := rfl
@[simp] theorem ovhEndEffect_host : (ovhEndEffect s).host = s.host := rfl
@[simp] theorem ovhEndEffect_phase : (ovhEndEffect s).phase = s.phase := rfl
@[simp] theorem ovhEndEffect_inp : (ovhEndEffect s).inp = s.inp := rfl
@[simp] theorem ovhEndEffect_out : (ovhEndEffect s).out = s.out := rfl
@[simp] theorem ovhEndEffect_rb : (ovhEndEffect s).rb = s.rb := rfl
@[simp] theorem ovhEndEffect_store : (ovhEndEffect s).store = s.store := rfl
@[simp] theorem ovhEndEffect_acc : (ovhEndEffect s).acc = s.acc := rfl
@[simp] theorem ovhEndEffect_code : (ovhEndEffect s).code = s.code := rfl
@[simp] theorem ovhEndEffect_slot : (ovhEndEffect s).slot = s.slot := rfl
@[simp] theorem ovhEndEffect_wr : (ovhEndEffect s).wr = s.wr := rfl
@[simp] theorem ovhEndEffect_si : (ovhEndEffect s).si = s.si := rfl
@[simp] theorem ovhEndEffect_cnt : (ovhEndEffect s).cnt = s.cnt := rfl
@[simp] theorem ovhEndEffect_first : (ovhEndEffect s).first = s.first := rfl
@[simp] theorem ovhEndEffect_prevFull : (ovhEndEffect s).prevFull = s.prevFull := rfl
@[simp] theorem ovhEndEffect_term : (ovhEndEffect s).term = true := rfl
@[simp] theorem ovhEndEffect_fi : (ovhEndEffect s).fi = s.fi + 1 := rfl
@[simp] theorem ovhEndEffect_ok : (ovhEndEffect s).ok = s.ok := rfl
@[simp] theorem ovhEndEffect_res : (ovhEndEffect s).res = s.res := rfl

/-! ## dataCopyEffect -/

@[simp] theorem dataCopyEffect_params (b : Byte) : (dataCopyEffect b s).params = s.params := rfl
@[simp] theorem dataCopyEffect_host (b : Byte) : (dataCopyEffect b s).host = s.host := rfl
@[simp] theorem dataCopyEffect_phase (b : Byte) : (dataCopyEffect b s).phase = s.phase := rfl
@[simp] theorem dataCopyEffect_inp (b : Byte) : (dataCopyEffect b s).inp = s.inp := rfl
@[simp] theorem dataCopyEffect_out (b : Byte) : (dataCopyEffect b s).out = s.out := rfl
@[simp] theorem dataCopyEffect_rb (b : Byte) : (dataCopyEffect b s).rb = s.rb.append b := rfl
@[simp] theorem dataCopyEffect_store (b : Byte) : (dataCopyEffect b s).store = s.store := rfl
@[simp] theorem dataCopyEffect_acc (b : Byte) : (dataCopyEffect b s).acc = s.acc := rfl
@[simp] theorem dataCopyEffect_code (b : Byte) : (dataCopyEffect b s).code = s.code := rfl
@[simp] theorem dataCopyEffect_slot (b : Byte) : (dataCopyEffect b s).slot = s.slot := rfl
@[simp] theorem dataCopyEffect_wr (b : Byte) : (dataCopyEffect b s).wr = s.wr := rfl
@[simp] theorem dataCopyEffect_si (b : Byte) : (dataCopyEffect b s).si = s.si := rfl
@[simp] theorem dataCopyEffect_cnt (b : Byte) : (dataCopyEffect b s).cnt = s.cnt - 1 := rfl
@[simp] theorem dataCopyEffect_first (b : Byte) : (dataCopyEffect b s).first = s.first := rfl
@[simp] theorem dataCopyEffect_prevFull (b : Byte) : (dataCopyEffect b s).prevFull = s.prevFull := rfl
@[simp] theorem dataCopyEffect_term (b : Byte) : (dataCopyEffect b s).term = s.term := rfl
@[simp] theorem dataCopyEffect_fi (b : Byte) : (dataCopyEffect b s).fi = s.fi + 1 := rfl
@[simp] theorem dataCopyEffect_ok (b : Byte) : (dataCopyEffect b s).ok = s.ok := rfl
@[simp] theorem dataCopyEffect_res (b : Byte) : (dataCopyEffect b s).res = s.res := rfl

/-! ## decEoiEffect -/

@[simp] theorem decEoiEffect_params : (decEoiEffect s).params = s.params := rfl
@[simp] theorem decEoiEffect_host : (decEoiEffect s).host = s.host := rfl
@[simp] theorem decEoiEffect_phase : (decEoiEffect s).phase = .decDone := rfl
@[simp] theorem decEoiEffect_inp : (decEoiEffect s).inp = s.inp := rfl
@[simp] theorem decEoiEffect_out : (decEoiEffect s).out = s.out := rfl
@[simp] theorem decEoiEffect_rb : (decEoiEffect s).rb = s.rb := rfl
@[simp] theorem decEoiEffect_store : (decEoiEffect s).store = s.store := rfl
@[simp] theorem decEoiEffect_acc : (decEoiEffect s).acc = s.acc := rfl
@[simp] theorem decEoiEffect_code : (decEoiEffect s).code = s.code := rfl
@[simp] theorem decEoiEffect_slot : (decEoiEffect s).slot = s.slot := rfl
@[simp] theorem decEoiEffect_wr : (decEoiEffect s).wr = s.wr := rfl
@[simp] theorem decEoiEffect_si : (decEoiEffect s).si = s.si := rfl
@[simp] theorem decEoiEffect_cnt : (decEoiEffect s).cnt = s.cnt := rfl
@[simp] theorem decEoiEffect_first : (decEoiEffect s).first = s.first := rfl
@[simp] theorem decEoiEffect_prevFull : (decEoiEffect s).prevFull = s.prevFull := rfl
@[simp] theorem decEoiEffect_term : (decEoiEffect s).term = s.term := rfl
@[simp] theorem decEoiEffect_fi : (decEoiEffect s).fi = s.fi := rfl
@[simp] theorem decEoiEffect_ok : (decEoiEffect s).ok = s.ok := rfl
@[simp] theorem decEoiEffect_res : (decEoiEffect s).res = s.res := rfl

/-! ## acceptMessage -/

@[simp] theorem acceptMessage_params (m : List Byte) : (acceptMessage m s).params = s.params := rfl
@[simp] theorem acceptMessage_host (m : List Byte) : (acceptMessage m s).host = s.host := rfl
@[simp] theorem acceptMessage_phase (m : List Byte) : (acceptMessage m s).phase = .idle := rfl
@[simp] theorem acceptMessage_inp (m : List Byte) : (acceptMessage m s).inp = s.inp := rfl
@[simp] theorem acceptMessage_out (m : List Byte) : (acceptMessage m s).out = s.out := rfl
@[simp] theorem acceptMessage_rb (m : List Byte) : (acceptMessage m s).rb = s.rb := rfl
@[simp] theorem acceptMessage_store (m : List Byte) : (acceptMessage m s).store = Buffer.ofBytes m := rfl
@[simp] theorem acceptMessage_acc (m : List Byte) : (acceptMessage m s).acc = s.acc := rfl
@[simp] theorem acceptMessage_code (m : List Byte) : (acceptMessage m s).code = s.code := rfl
@[simp] theorem acceptMessage_slot (m : List Byte) : (acceptMessage m s).slot = s.slot := rfl
@[simp] theorem acceptMessage_wr (m : List Byte) : (acceptMessage m s).wr = s.wr := rfl
@[simp] theorem acceptMessage_si (m : List Byte) : (acceptMessage m s).si = s.si := rfl
@[simp] theorem acceptMessage_cnt (m : List Byte) : (acceptMessage m s).cnt = s.cnt := rfl
@[simp] theorem acceptMessage_first (m : List Byte) : (acceptMessage m s).first = s.first := rfl
@[simp] theorem acceptMessage_prevFull (m : List Byte) : (acceptMessage m s).prevFull = s.prevFull := rfl
@[simp] theorem acceptMessage_term (m : List Byte) : (acceptMessage m s).term = s.term := rfl
@[simp] theorem acceptMessage_fi (m : List Byte) : (acceptMessage m s).fi = s.fi := rfl
@[simp] theorem acceptMessage_ok (m : List Byte) : (acceptMessage m s).ok = true := rfl
@[simp] theorem acceptMessage_res (m : List Byte) : (acceptMessage m s).res = s.res := rfl

/-! ## foldBytes: the engine writes `ACC` and `SI` (rule R111) -/

theorem foldl_foldStep (bs : List Byte) :
    bs.foldl foldStep s = { s with acc := bs.foldl (fun acc b => acc ^^^ b) s.acc, si := s.si + bs.length } := by
  induction bs generalizing s with
  | nil => rfl
  | cons b bs ih => rw [List.foldl_cons, ih]; simp [foldStep, Nat.add_comm, Nat.add_assoc]

/-- Everything a run of the checksum engine does. -/
theorem foldBytes_eq (bs : List Byte) : foldBytes bs s = { s with acc := xorFold bs, si := bs.length } := by
  rw [foldBytes, foldl_foldStep]; simp [xorFold]

@[simp] theorem foldBytes_params (bs : List Byte) : (foldBytes bs s).params = s.params := by rw [foldBytes_eq]
@[simp] theorem foldBytes_host (bs : List Byte) : (foldBytes bs s).host = s.host := by rw [foldBytes_eq]
@[simp] theorem foldBytes_phase (bs : List Byte) : (foldBytes bs s).phase = s.phase := by rw [foldBytes_eq]
@[simp] theorem foldBytes_inp (bs : List Byte) : (foldBytes bs s).inp = s.inp := by rw [foldBytes_eq]
@[simp] theorem foldBytes_out (bs : List Byte) : (foldBytes bs s).out = s.out := by rw [foldBytes_eq]
@[simp] theorem foldBytes_rb (bs : List Byte) : (foldBytes bs s).rb = s.rb := by rw [foldBytes_eq]
@[simp] theorem foldBytes_store (bs : List Byte) : (foldBytes bs s).store = s.store := by rw [foldBytes_eq]
@[simp] theorem foldBytes_acc (bs : List Byte) : (foldBytes bs s).acc = xorFold bs := by rw [foldBytes_eq]
@[simp] theorem foldBytes_code (bs : List Byte) : (foldBytes bs s).code = s.code := by rw [foldBytes_eq]
@[simp] theorem foldBytes_slot (bs : List Byte) : (foldBytes bs s).slot = s.slot := by rw [foldBytes_eq]
@[simp] theorem foldBytes_wr (bs : List Byte) : (foldBytes bs s).wr = s.wr := by rw [foldBytes_eq]
@[simp] theorem foldBytes_si (bs : List Byte) : (foldBytes bs s).si = bs.length := by rw [foldBytes_eq]
@[simp] theorem foldBytes_cnt (bs : List Byte) : (foldBytes bs s).cnt = s.cnt := by rw [foldBytes_eq]
@[simp] theorem foldBytes_first (bs : List Byte) : (foldBytes bs s).first = s.first := by rw [foldBytes_eq]
@[simp] theorem foldBytes_prevFull (bs : List Byte) : (foldBytes bs s).prevFull = s.prevFull := by rw [foldBytes_eq]
@[simp] theorem foldBytes_term (bs : List Byte) : (foldBytes bs s).term = s.term := by rw [foldBytes_eq]
@[simp] theorem foldBytes_fi (bs : List Byte) : (foldBytes bs s).fi = s.fi := by rw [foldBytes_eq]
@[simp] theorem foldBytes_ok (bs : List Byte) : (foldBytes bs s).ok = s.ok := by rw [foldBytes_eq]
@[simp] theorem foldBytes_res (bs : List Byte) : (foldBytes bs s).res = s.res := by rw [foldBytes_eq]

/-- Everything the fold of rule R120 does. -/
theorem beginEncode_eq :
    beginEncode s =
      { s with acc := xorFold (bytesOf s .input), si := (bytesOf s .input).length, phase := .encInit } := by
  rw [beginEncode, foldBytes_eq]

/-! ## restoreDelim and openFrameBlock: only `RB` depends on the restoration test (rules R153, R154) -/

theorem restoreDelim_eq :
    restoreDelim s = { s with rb := if restores s then s.rb.append Config.delim else s.rb } := by
  unfold restoreDelim; split <;> rfl

/-- Everything the opening of a frame block does. -/
theorem openFrameBlock_eq (l : Byte) :
    openFrameBlock l s =
      { s with
        rb := if restores s then s.rb.append Config.delim else s.rb,
        first := false, prevFull := isFull l, cnt := dataCount l, fi := s.fi + 1 } := by
  rw [openFrameBlock, restoreDelim_eq]

@[simp] theorem openFrameBlock_params (l : Byte) : (openFrameBlock l s).params = s.params := by rw [openFrameBlock_eq]
@[simp] theorem openFrameBlock_host (l : Byte) : (openFrameBlock l s).host = s.host := by rw [openFrameBlock_eq]
@[simp] theorem openFrameBlock_phase (l : Byte) : (openFrameBlock l s).phase = s.phase := by rw [openFrameBlock_eq]
@[simp] theorem openFrameBlock_inp (l : Byte) : (openFrameBlock l s).inp = s.inp := by rw [openFrameBlock_eq]
@[simp] theorem openFrameBlock_out (l : Byte) : (openFrameBlock l s).out = s.out := by rw [openFrameBlock_eq]
@[simp] theorem openFrameBlock_rb (l : Byte) : (openFrameBlock l s).rb = if restores s then s.rb.append Config.delim else s.rb := by rw [openFrameBlock_eq]
@[simp] theorem openFrameBlock_store (l : Byte) : (openFrameBlock l s).store = s.store := by rw [openFrameBlock_eq]
@[simp] theorem openFrameBlock_acc (l : Byte) : (openFrameBlock l s).acc = s.acc := by rw [openFrameBlock_eq]
@[simp] theorem openFrameBlock_code (l : Byte) : (openFrameBlock l s).code = s.code := by rw [openFrameBlock_eq]
@[simp] theorem openFrameBlock_slot (l : Byte) : (openFrameBlock l s).slot = s.slot := by rw [openFrameBlock_eq]
@[simp] theorem openFrameBlock_wr (l : Byte) : (openFrameBlock l s).wr = s.wr := by rw [openFrameBlock_eq]
@[simp] theorem openFrameBlock_si (l : Byte) : (openFrameBlock l s).si = s.si := by rw [openFrameBlock_eq]
@[simp] theorem openFrameBlock_cnt (l : Byte) : (openFrameBlock l s).cnt = dataCount l := by rw [openFrameBlock_eq]
@[simp] theorem openFrameBlock_first (l : Byte) : (openFrameBlock l s).first = false := by rw [openFrameBlock_eq]
@[simp] theorem openFrameBlock_prevFull (l : Byte) : (openFrameBlock l s).prevFull = isFull l := by rw [openFrameBlock_eq]
@[simp] theorem openFrameBlock_term (l : Byte) : (openFrameBlock l s).term = s.term := by rw [openFrameBlock_eq]
@[simp] theorem openFrameBlock_fi (l : Byte) : (openFrameBlock l s).fi = s.fi + 1 := by rw [openFrameBlock_eq]
@[simp] theorem openFrameBlock_ok (l : Byte) : (openFrameBlock l s).ok = s.ok := by rw [openFrameBlock_eq]
@[simp] theorem openFrameBlock_res (l : Byte) : (openFrameBlock l s).res = s.res := by rw [openFrameBlock_eq]

/-- Everything DEC.VALIDATE does (rules R168 to R171): the empty, the success and the mismatch arm. -/
theorem decValidateEffect_eq :
    decValidateEffect s =
      if s.rb.len = 0 then { s with ok := false, phase := .idle }
      else if xorFold (receivedMessage s) = receivedChecksum s then
        { s with
          store := Buffer.ofBytes (receivedMessage s), ok := true, phase := .idle,
          acc := xorFold (receivedMessage s), si := (receivedMessage s).length }
      else
        { s with ok := false, phase := .idle, acc := xorFold (receivedMessage s), si := (receivedMessage s).length } := by
  unfold decValidateEffect validateNonEmpty
  split
  · rfl
  · rw [foldBytes_eq]; split <;> rfl

/-- DEC.VALIDATE succeeds exactly when it has no cause to fail (rules R213, R216). -/
theorem decValidateEffect_ok : (decValidateEffect s).ok = (failCause s).isNone := by
  rw [decValidateEffect_eq, failCause]
  split
  · rfl
  · split <;> rfl

/-- Everything the source micro-steps do, as record updates (rules R122, R123, R124). -/
theorem encZeroEffect_eq :
    encZeroEffect s =
      { s with
        out := (s.out.write s.slot s.code).reserve s.wr, slot := s.wr, wr := s.wr + 1, code := 0x01, si := s.si + 1 } :=
  rfl

theorem encDataEffect_eq (b : Byte) :
    encDataEffect b s = { s with out := s.out.write s.wr b, wr := s.wr + 1, code := s.code + 1, si := s.si + 1 } :=
  rfl

theorem encDataFullEffect_eq (b : Byte) :
    encDataFullEffect b s =
      { s with
        out := ((s.out.write s.wr b).write s.slot (s.code + 1)).reserve (s.wr + 1),
        slot := s.wr + 1, wr := s.wr + 1 + 1, code := 0x01, si := s.si + 1 } :=
  rfl

end Sys2Proof.Machine
end

