-- ==== Sys2Proof/Laws/Decoder.lean ====
section
/-! SUPPORT. The scan of DECODE on byte sequences: the registers it works on, and one lemma that says everything the machine's
loop does. -/

namespace Sys2Proof.Machine

open Sys2Proof

/-- The working state of the scan: what rules R151 to R155 write. -/
structure ScanRegs where
  rb : Buffer
  cnt : Byte
  first : Bool
  prevFull : Bool
  term : Bool
  fi : Nat
deriving DecidableEq, Repr

/-- The scan's registers in a state. -/
def scanRegs (s : State) : ScanRegs := ⟨s.rb, s.cnt, s.first, s.prevFull, s.term, s.fi⟩

/-- A state with other scan registers. -/
def withScanRegs (r : ScanRegs) (s : State) : State :=
  { s with rb := r.rb, cnt := r.cnt, first := r.first, prevFull := r.prevFull, term := r.term, fi := r.fi }

/-- What one frame byte does to the scan's registers (rules R152 to R155). -/
def scanByte (b : Byte) (r : ScanRegs) : ScanRegs :=
  if r.cnt = 0x00 then
    if b = Config.delim then { r with fi := r.fi + 1, term := true }
    else
      { r with
        rb := if (!r.first && !r.prevFull) = true then r.rb.append Config.delim else r.rb,
        first := false, prevFull := isFull b, cnt := dataCount b, fi := r.fi + 1 }
  else { r with rb := r.rb.append b, cnt := r.cnt - 1, fi := r.fi + 1 }

/-- The scan over the bytes still to come: it stops once `TERM` is 1 (rule R157). -/
def scanBytes : List Byte → ScanRegs → ScanRegs
  | [], r => r
  | b :: f, r => if r.term then r else scanBytes f (scanByte b r)

@[simp] theorem withScanRegs_scanRegs (s : State) : withScanRegs (scanRegs s) s = s := rfl
@[simp] theorem scanRegs_withScanRegs (r : ScanRegs) (s : State) : scanRegs (withScanRegs r s) = r := rfl
@[simp] theorem withScanRegs_withScanRegs (r r' : ScanRegs) (s : State) :
    withScanRegs r (withScanRegs r' s) = withScanRegs r s := rfl

/-- One pass through the loop's body is one byte of the scan. -/
theorem decByte_eq (s : State) : decByte s = withScanRegs (scanByte (frameByte s) (scanRegs s)) s := by
  unfold decByte scanByte
  by_cases hc : s.cnt = 0x00
  · rw [if_pos hc, if_pos (show (scanRegs s).cnt = 0x00 from hc)]
    by_cases hb : frameByte s = Config.delim
    · rw [if_pos hb, if_pos hb]; rfl
    · rw [if_neg hb, if_neg hb]
      by_cases hf : frameByte s = Config.ovhFull
      · rw [if_pos hf, ovhFullEffect, openFrameBlock_eq, hf]; rfl
      · rw [if_neg hf, ovhBlkEffect, openFrameBlock_eq]; rfl
  · rw [if_neg hc, if_neg (show ¬(scanRegs s).cnt = 0x00 from hc)]; rfl

/-- The frame bytes at and after the scan index. -/
def bytesToCome (s : State) : List Byte := (bytesOf s .input).drop s.fi

theorem bytesToCome_cons {s : State} (h : s.fi < s.inp.len) :
    bytesToCome s = frameByte s :: (bytesOf s .input).drop (s.fi + 1) := by
  have hl : s.fi < (bytesOf s .input).length := by simpa using h
  rw [bytesToCome, List.drop_eq_getElem_cons hl, bytesOf_getElem]
  rfl

theorem bytesToCome_nil {s : State} (h : s.inp.len ≤ s.fi) : bytesToCome s = [] :=
  List.drop_eq_nil_of_le (by simpa using h)

theorem scanByte_fi (b : Byte) (r : ScanRegs) : (scanByte b r).fi = r.fi + 1 := by
  unfold scanByte; split
  · split <;> rfl
  · rfl

theorem scanBytes_term {r : ScanRegs} (h : r.term = true) (f : List Byte) : scanBytes f r = r := by
  cases f <;> simp [scanBytes, h]

/-- Everything the loop of DECODE does, given fuel for the bytes still to come: it writes the scan's registers as the scan of
those bytes does, and nothing else. -/
theorem decLoop_eq (n : Nat) (s : State) (hn : s.inp.len ≤ s.fi + n) :
    decLoop n s = withScanRegs (scanBytes (bytesToCome s) (scanRegs s)) s := by
  induction n generalizing s with
  | zero => rw [bytesToCome_nil (by omega)]; rfl
  | succ n ih =>
    rw [decLoop]
    by_cases ht : s.term = true
    · have hr : scanRuns s = false := by simp [scanRuns, ht]
      rw [hr, scanBytes_term (r := scanRegs s) ht]; rfl
    · by_cases hf : s.fi < s.inp.len
      · have hr : scanRuns s = true := by simp [scanRuns, ht, hf]
        have hfi : (decByte s).fi = s.fi + 1 := by rw [decByte_eq]; exact scanByte_fi _ _
        have hinp : (decByte s).inp = s.inp := by rw [decByte_eq]; rfl
        have hto : bytesToCome (decByte s) = (bytesOf s .input).drop (s.fi + 1) := by
          rw [bytesToCome, hfi]; unfold bytesOf bufLen State.buf; rw [hinp]
        rw [if_pos hr, ih (decByte s) (by rw [hfi, hinp]; omega), hto, bytesToCome_cons hf, scanBytes,
          if_neg (by simpa [scanRegs] using ht), decByte_eq]
        rfl
      · have hr : scanRuns s = false := by simp [scanRuns, hf]
        rw [hr, bytesToCome_nil (by omega)]; rfl

/-- The registers DEC.INIT leaves (rule R151). -/
def initialRegs : ScanRegs := ⟨Buffer.empty, 0x00, true, false, false, 0⟩

/-- Everything the scan of DECODE does, from an accepted operation to the end of the scan. -/
theorem decodeScan_eq (s : State) :
    decLoop s.inp.len (decInitEffect (beginDecode s)) =
      { withScanRegs (scanBytes (bytesOf s .input) initialRegs) s with phase := .decScan } := by
  rw [decLoop_eq s.inp.len (decInitEffect (beginDecode s)) (by simp)]
  have h : bytesToCome (decInitEffect (beginDecode s)) = bytesOf s .input := by
    simp [bytesToCome, bytesOf, bufLen, State.buf]
  rw [h]; rfl

end Sys2Proof.Machine
end

