-- ==== Sys2Proof/Laws/Encoder.lean ====
section
/-! SUPPORT. The scan of ENCODE on byte sequences: the stuffing of a sequence from an open block on, and one lemma that says what
the machine's loop and ENC.FIN leave in `OUT`. -/

namespace Sys2Proof.Machine

open Sys2Proof

/-- The bytes that close a block of data `d` which is not full. -/
def shortBlock (d : List Byte) : List Byte := BitVec.ofNat 8 (d.length + 1) :: d

/-- What is emitted for the bytes `x` still to come when the open block holds the data `d`, without the final Delimiter (rules
R122 to R125). -/
def stuff : List Byte → List Byte → List Byte
  | d, [] => shortBlock d
  | d, b :: x =>
    if b = Config.delim then shortBlock d ++ stuff [] x
    else if d.length < 253 then stuff (d ++ [b]) x
    else Config.ovhFull :: (d ++ [b]) ++ stuff [] x

/-- `OUT` during the scan: the closed blocks `a` below `SLOT` and the data `d` of the open block above it (rule R44). -/
structure OutView (s : State) (a d : List Byte) : Prop where
  short : d.length ≤ 253
  slot : s.slot = a.length
  write : s.wr = a.length + 1 + d.length
  code : s.code = BitVec.ofNat 8 (d.length + 1)
  closed : ∀ i, (h : i < a.length) → s.out.read .out i = a[i]
  data : ∀ i, (h : i < d.length) → s.out.read .out (a.length + 1 + i) = d[i]

/-- The loop's body writes `OUT` and the encoder's registers, and nothing else. -/
theorem encByte_frame (s : State) :
    encByte s =
      { s with
        out := (encByte s).out, slot := (encByte s).slot, wr := (encByte s).wr, code := (encByte s).code,
        si := s.si + 1 } := by
  unfold encByte; split
  · rfl
  · split <;> rfl

/-- The loop writes `OUT` and the encoder's registers, and nothing else. -/
theorem encLoop_frame (n : Nat) (s : State) :
    encLoop n s =
      { s with
        out := (encLoop n s).out, slot := (encLoop n s).slot, wr := (encLoop n s).wr,
        code := (encLoop n s).code, si := (encLoop n s).si } := by
  induction n generalizing s with
  | zero => rfl
  | succ n ih =>
    rw [encLoop]; split
    · rw [ih (encByte s), encByte_frame s]
    · rfl

theorem encByte_out_len (s : State) : (encByte s).out.len = s.out.len := by
  unfold encByte; split
  · rfl
  · split <;> rfl

/-- `CODE` counts one more than the data of the open block. -/
theorem OutView.code_toNat {s : State} {a d : List Byte} (v : OutView s a d) : s.code.toNat = d.length + 1 := by
  rw [v.code, BitVec.toNat_ofNat]; have := v.short; omega

/-- Closing the open block and opening the next one. -/
theorem OutView.close {s : State} {a d : List Byte} (v : OutView s a d) :
    OutView (openBlock (closeBlock s)) (a ++ shortBlock d) [] where
  short := by simp
  slot := by have := v.write; simp [shortBlock]; omega
  write := by have := v.write; simp [shortBlock]; omega
  code := rfl
  closed := by
    intro i hi
    have hw := v.write; have hs := v.slot
    have hlen : (a ++ shortBlock d).length = s.wr := by simp [shortBlock, hw]; omega
    simp only [openBlock_out, closeBlock_wr, closeBlock_out]
    rw [Buffer.read_reserve _ _ (by omega), Buffer.read_write]
    by_cases h1 : i < a.length
    · rw [if_neg (by omega), v.closed i h1, List.getElem_append_left h1]
    · rw [List.getElem_append_right (by omega)]
      by_cases h2 : i = a.length
      · subst h2; simp [hs, shortBlock, v.code]
      · rw [if_neg (by omega)]
        have h4 : a.length + 1 + (i - a.length - 1) = i := by omega
        simp only [shortBlock, List.length_append, List.length_cons] at hi
        have h6 := v.data (i - a.length - 1) (by omega)
        rw [h4] at h6
        simp only [shortBlock, List.getElem_cons]
        rw [dif_neg (by omega), h6]
  data := by simp

/-- One pass through the loop's body keeps the view, and what is still to be emitted. -/
theorem OutView.byte {s : State} {a d : List Byte} (v : OutView s a d) :
    ∃ a' d', OutView (encByte s) a' d' ∧
      ∀ x, a' ++ stuff d' x = a ++ stuff d (xByte s :: x) := by
  have hc := v.code_toNat
  have hs := v.short
  unfold encByte
  by_cases hb : xByte s = Config.delim
  · rw [if_pos hb]
    refine ⟨a ++ shortBlock d, [], ?_, fun x => by simp [stuff, hb]⟩
    have h := v.close
    exact ⟨h.short, h.slot, h.write, h.code, h.closed, h.data⟩
  · rw [if_neg hb]
    by_cases hd : s.code.toNat ≤ 253
    · rw [if_pos hd]
      refine ⟨a, d ++ [xByte s], ?_, fun x => by rw [stuff, if_neg hb, if_pos (by omega)]⟩
      refine ⟨by simp; omega, v.slot, ?_, ?_, ?_, ?_⟩
      · simp [encDataEffect, v.write]; omega
      · simp only [encDataEffect, advanceSource_code, emitByte_code, v.code, List.length_append, List.length_singleton]
        apply BitVec.eq_of_toNat_eq
        simp
      · intro i hi
        simp only [encDataEffect, advanceSource_out, emitByte_out]
        rw [Buffer.read_write, if_neg (by have := v.write; omega), v.closed i hi]
      · intro i hi
        simp only [encDataEffect, advanceSource_out, emitByte_out, Buffer.read_write]
        simp only [List.length_append, List.length_singleton] at hi
        have hw := v.write
        by_cases hi' : i < d.length
        · rw [if_neg (by omega), v.data i hi', List.getElem_append_left hi']
        · have : i = d.length := by omega
          subst this
          simp [hw]
    · rw [if_neg hd]
      have hl : d.length = 253 := by omega
      refine ⟨a ++ Config.ovhFull :: (d ++ [xByte s]), [], ?_, fun x => by
        rw [stuff, if_neg hb, if_neg (by omega)]; simp⟩
      have hw := v.write
      have hsl := v.slot
      have hcode : s.code + 1 = Config.ovhFull := by
        apply BitVec.eq_of_toNat_eq
        rw [v.code, hl]; rfl
      refine ⟨by simp, ?_, ?_, rfl, ?_, by simp⟩
      · simp [encDataFullEffect_eq, hw]; omega
      · simp [encDataFullEffect_eq, hw]; omega
      · intro i hi
        simp only [encDataFullEffect_eq]
        have hlen : (a ++ Config.ovhFull :: (d ++ [xByte s])).length = s.wr + 1 := by simp [hw]; omega
        rw [Buffer.read_reserve _ _ (by omega), Buffer.read_write, Buffer.read_write]
        by_cases h1 : i < a.length
        · rw [if_neg (by omega), if_neg (by omega), v.closed i h1, List.getElem_append_left h1]
        · rw [List.getElem_append_right (by omega)]
          by_cases h2 : i = a.length
          · subst h2; rw [if_pos hsl.symm, hcode]; simp
          · rw [if_neg (by omega), List.getElem_cons, dif_neg (by omega)]
            by_cases h4 : i = s.wr
            · rw [if_pos h4, List.getElem_append_right (by omega)]
              simp
            · have h5 : i - a.length - 1 < d.length := by omega
              have h6 := v.data _ h5
              rw [show a.length + 1 + (i - a.length - 1) = i by omega] at h6
              rw [if_neg h4, h6, List.getElem_append_left h5]

/-- The bytes of the Extended Message at and after the scan index. -/
def sourceToCome (s : State) : List Byte := (bytesOf s .input ++ [s.acc]).drop s.si

theorem sourceToCome_cons {s : State} (h : s.si < xLen s) :
    sourceToCome s = xByte s :: (bytesOf s .input ++ [s.acc]).drop (s.si + 1) := by
  have hl : s.si < (bytesOf s .input ++ [s.acc]).length := by simpa [xLen] using h
  rw [sourceToCome, List.drop_eq_getElem_cons hl]
  congr 1
  unfold xByte
  by_cases hi : s.si < s.inp.len
  · have hb : s.si < (bytesOf s .input).length := by simpa using hi
    rw [if_pos hi, List.getElem_append_left hb, bytesOf_getElem]
  · have hb : (bytesOf s .input).length ≤ s.si := by simpa using hi
    rw [if_neg hi, List.getElem_append_right hb]
    simp

theorem sourceToCome_nil {s : State} (h : xLen s ≤ s.si) : sourceToCome s = [] :=
  List.drop_eq_nil_of_le (by simpa [xLen] using h)

/-- Everything the loop of ENCODE does, given fuel for the bytes still to come: it reaches the end of X, and with its open block
closed the output is what `stuff` gives for those bytes. -/
theorem encLoop_view (n : Nat) {s : State} {a d : List Byte} (v : OutView s a d) (hs : s.si ≤ xLen s)
    (hn : xLen s ≤ s.si + n) :
    ∃ a' d', OutView (encLoop n s) a' d' ∧ (encLoop n s).si = xLen s ∧
      a' ++ shortBlock d' = a ++ stuff d (sourceToCome s) := by
  induction n generalizing s a d with
  | zero =>
    refine ⟨a, d, v, by rw [encLoop]; omega, ?_⟩
    rw [sourceToCome_nil (by omega)]; rfl
  | succ n ih =>
    rw [encLoop]
    by_cases h : s.si < xLen s
    · rw [if_pos h]
      obtain ⟨a1, d1, v1, h1⟩ := v.byte
      have hf := encByte_frame s
      have hsi : (encByte s).si = s.si + 1 := by rw [hf]
      have hx : xLen (encByte s) = xLen s := by rw [hf]; rfl
      have hto : sourceToCome (encByte s) = (bytesOf s .input ++ [s.acc]).drop (s.si + 1) := by rw [hf]; rfl
      obtain ⟨a2, d2, v2, h2, h3⟩ := ih v1 (by rw [hsi, hx]; omega) (by rw [hsi, hx]; omega)
      refine ⟨a2, d2, v2, h2.trans hx, ?_⟩
      rw [h3, hto, h1, sourceToCome_cons h]
    · rw [if_neg h]
      refine ⟨a, d, v, by omega, ?_⟩
      rw [sourceToCome_nil (by omega)]; rfl

/-- ENC.INIT gives the empty view. -/
theorem encInit_view (s : State) : OutView (encInitEffect s) [] [] :=
  ⟨by simp, rfl, rfl, rfl, by simp, by simp⟩

/-- Everything ENC.FIN leaves in `OUT` (rule R125). -/
theorem encFin_bytes {s : State} {a d : List Byte} (v : OutView s a d) :
    bytesOf (encFinEffect s) .out = a ++ shortBlock d ++ [Config.delim] := by
  have hw := v.write
  have hs := v.slot
  apply List.ext_getElem
  · simp [shortBlock, hw]; omega
  · intro i h1 h2
    have hi : i < s.wr + 1 := by simpa using h1
    rw [bytesOf_getElem]
    change Buffer.read .out (encFinEffect s).out i = _
    rw [encFinEffect_out, Buffer.read_setLen _ _ hi, Buffer.read_write, Buffer.read_write]
    have hlen : (a ++ shortBlock d).length = s.wr := by simp [shortBlock, hw]; omega
    by_cases h3 : i = s.wr
    · rw [if_pos h3, List.getElem_append_right (by omega)]
      simp [hlen, h3]
    · rw [if_neg h3, List.getElem_append_left (by omega)]
      have hc := (v.close).closed i (by omega)
      simp only [openBlock_out, closeBlock_wr, closeBlock_out] at hc
      rw [Buffer.read_reserve _ _ (by omega), Buffer.read_write] at hc
      exact hc

/-- Everything ENCODE leaves in `OUT`. -/
theorem encodeRun_bytes (s : State) :
    bytesOf (encodeRun s) .out = stuff [] (extendedMessage (bytesOf s .input)) ++ [Config.delim] := by
  unfold encodeRun
  have hb := beginEncode_eq s
  obtain ⟨a, d, v, -, h⟩ := encLoop_view (xLen s) (encInit_view (beginEncode s)) (by simp)
    (by rw [hb]; simp [xLen])
  rw [encFin_bytes v, h]
  have hto : sourceToCome (encInitEffect (beginEncode s)) = extendedMessage (bytesOf s .input) := by
    rw [hb]; rfl
  rw [hto]; rfl

/-- Everything ENCODE leaves unchanged, and where its scan ends. -/
theorem encodeRun_frame (s : State) :
    encodeRun s =
      { s with
        out := (encodeRun s).out, acc := xorFold (bytesOf s .input), si := s.inp.len + 1,
        slot := (encodeRun s).slot, wr := (encodeRun s).wr, code := (encodeRun s).code, phase := .idle } := by
  have hb := beginEncode_eq s
  obtain ⟨a, d, v, h, -⟩ := encLoop_view (xLen s) (encInit_view (beginEncode s)) (by simp)
    (by rw [hb]; simp [xLen])
  have hx : xLen (encInitEffect (beginEncode s)) = s.inp.len + 1 := by rw [hb]; rfl
  rw [hx] at h
  have hf := encLoop_frame (xLen s) (encInitEffect (beginEncode s))
  have : encodeRun s = encFinEffect { encInitEffect (beginEncode s) with
      out := (encLoop (xLen s) (encInitEffect (beginEncode s))).out,
      slot := (encLoop (xLen s) (encInitEffect (beginEncode s))).slot,
      wr := (encLoop (xLen s) (encInitEffect (beginEncode s))).wr,
      code := (encLoop (xLen s) (encInitEffect (beginEncode s))).code,
      si := s.inp.len + 1 } := by
    rw [← h, ← hf]; rfl
  rw [this, hb]
  rfl

end Sys2Proof.Machine
end

