-- ==== Sys2Proof/Laws/PerInstr.lean ====
section
/-! SUPPORT. Statements made for every row of the opcode table, one lemma per constructor. -/

namespace Sys2Proof.Laws

open Sys2Proof

/-! ## EncodeLength: an encoding has exactly the bytes that the row's format matches (rule R96) -/

/-- The encoding of an instruction has as many bytes as its format matches; and in a context in which its row is matched, fewer
bytes than that decode to nothing. -/
def EncodeLength.Statement (i : Instr) : Prop :=
  (encode i).length = i.format.byteCount ∧
  ∀ (ctx : Context) (bytes : List Byte), ctx.admits i = true → bytes.length < i.format.byteCount →
    decode ctx bytes = .error .noByte

/-- A context that is no fixed point needs a byte. -/
theorem decode_nil {ctx : Context} (h : ∀ p, ctx ≠ .point p) : decode ctx [] = .error .noByte := by
  cases ctx with
  | point p => exact absurd rfl (h p)
  | hostop => rfl
  | overhead => rfl
  | data => rfl
  | source code => rfl

/-- A row that matches a byte is matched at no fixed point. -/
theorem not_point_of_admits {ctx : Context} {i : Instr} (hi : i.format ≠ .implicit) (ha : ctx.admits i = true) :
    ∀ p, ctx ≠ .point p := by
  rintro p rfl
  rw [of_decide_eq_true ha] at hi
  cases p <;> exact hi rfl

/-- A row that matches one byte meets the statement. -/
theorem encodeLength_one {i : Instr} (hl : (encode i).length = i.format.byteCount) (hb : i.format.byteCount = 1)
    (hi : i.format ≠ .implicit) : EncodeLength.Statement i := by
  refine ⟨hl, fun ctx bytes ha h => ?_⟩
  obtain rfl : bytes = [] := List.length_eq_zero_iff.1 (by omega)
  exact decode_nil (not_point_of_admits hi ha)

/-- A row that matches no byte meets the statement. -/
theorem encodeLength_zero {i : Instr} (hl : (encode i).length = i.format.byteCount) (hb : i.format.byteCount = 0) :
    EncodeLength.Statement i :=
  ⟨hl, fun _ bytes _ h => absurd h (by omega)⟩

theorem EncodeLength.checksum : EncodeLength.Statement .checksum :=
  encodeLength_one rfl rfl (by simp [Instr.format])

theorem EncodeLength.encode : EncodeLength.Statement .encode :=
  encodeLength_one rfl rfl (by simp [Instr.format])

theorem EncodeLength.decode : EncodeLength.Statement .decode :=
  encodeLength_one rfl rfl (by simp [Instr.format])

theorem EncodeLength.getmsg : EncodeLength.Statement .getmsg :=
  encodeLength_one rfl rfl (by simp [Instr.format])

theorem EncodeLength.ovhEnd : EncodeLength.Statement .ovhEnd :=
  encodeLength_one rfl rfl (by simp [Instr.format])

theorem EncodeLength.ovhFull : EncodeLength.Statement .ovhFull :=
  encodeLength_one rfl rfl (by simp [Instr.format])

theorem EncodeLength.ovhBlk (l : Byte) : EncodeLength.Statement (.ovhBlk l) :=
  encodeLength_one rfl rfl (by simp [Instr.format])

theorem EncodeLength.dataCopy (b : Byte) : EncodeLength.Statement (.dataCopy b) :=
  encodeLength_one rfl rfl (by simp [Instr.format])

theorem EncodeLength.encZero : EncodeLength.Statement .encZero :=
  encodeLength_one rfl rfl (by simp [Instr.format])

theorem EncodeLength.encData (b : Byte) : EncodeLength.Statement (.encData b) :=
  encodeLength_one rfl rfl (by simp [Instr.format])

theorem EncodeLength.encDataFull (b : Byte) : EncodeLength.Statement (.encDataFull b) :=
  encodeLength_one rfl rfl (by simp [Instr.format])

theorem EncodeLength.encInit : EncodeLength.Statement .encInit := encodeLength_zero rfl rfl

theorem EncodeLength.encFin : EncodeLength.Statement .encFin := encodeLength_zero rfl rfl

theorem EncodeLength.decInit : EncodeLength.Statement .decInit := encodeLength_zero rfl rfl

theorem EncodeLength.decEoi : EncodeLength.Statement .decEoi := encodeLength_zero rfl rfl

theorem EncodeLength.decValidate : EncodeLength.Statement .decValidate := encodeLength_zero rfl rfl

end Sys2Proof.Laws
end

