-- ==== Sys2Proof/Laws/Step.lean ====
section
/-! SUPPORT. Everything a step can do, said once: the next state of a host operation, of the step inside an operation, and of the
step of an idle instance. -/

namespace Sys2Proof.Machine

open Sys2Proof

variable {s t : State}

/-! ## The host operations -/

theorem exec_checksum_next (h : exec .checksum s = .next t) :
    s.phase = .idle ∧ payloadFits s = true ∧ t = takeResult (foldBytes (bytesOf s .input) s) := by
  simp only [exec, execChecksum] at h
  split at h
  · cases h
  · rename_i hb
    split at h
    · cases h; exact ⟨by simpa [busy] using hb, ‹_›, rfl⟩
    · cases h

theorem exec_encode_next (h : exec .encode s = .next t) :
    s.phase = .idle ∧ payloadFits s = true ∧ t = encodeRun s := by
  simp only [exec, execEncode] at h
  split at h
  · cases h
  · rename_i hb
    split at h
    · cases h; exact ⟨by simpa [busy] using hb, ‹_›, rfl⟩
    · cases h

theorem exec_decode_next (h : exec .decode s = .next t) :
    s.phase = .idle ∧ frameFits s = true ∧ t = decodeRun s := by
  simp only [exec, execDecode] at h
  split at h
  · cases h
  · rename_i hb
    split at h
    · cases h; exact ⟨by simpa [busy] using hb, ‹_›, rfl⟩
    · cases h

theorem exec_getmsg_next (h : exec .getmsg s = .next t) : s.phase = .idle ∧ t = copyStoreOut s := by
  simp only [exec, execGetmsg] at h
  split at h
  · cases h
  · rename_i hb
    cases h; exact ⟨by simpa [busy] using hb, rfl⟩

/-- The next state of a host operation, by its code. -/
theorem exec_op_next (op : OpCode) (h : exec (decodeOp op) s = .next t) :
    s.phase = .idle ∧
      (op = 0b00 ∧ payloadFits s = true ∧ t = takeResult (foldBytes (bytesOf s .input) s) ∨
        op = 0b01 ∧ payloadFits s = true ∧ t = encodeRun s ∨
        op = 0b10 ∧ frameFits s = true ∧ t = decodeRun s ∨
        op = 0b11 ∧ t = copyStoreOut s) := by
  have hop : op = 0b00 ∨ op = 0b01 ∨ op = 0b10 ∨ op = 0b11 := by
    clear h; revert op; decide
  rcases hop with rfl | rfl | rfl | rfl
  · have := exec_checksum_next h; exact ⟨this.1, .inl ⟨rfl, this.2⟩⟩
  · have := exec_encode_next h; exact ⟨this.1, .inr (.inl ⟨rfl, this.2⟩)⟩
  · have := exec_decode_next h; exact ⟨this.1, .inr (.inr (.inl ⟨rfl, this.2⟩))⟩
  · have := exec_getmsg_next h; exact ⟨this.1, .inr (.inr (.inr ⟨rfl, this.2⟩))⟩

theorem decode_opByte (op : OpCode) : decode .hostop [opByte op] = .ok (decodeOp op, []) := by
  revert op; decide +revert

/-! ## The step inside an operation -/

/-- The source byte selects exactly the branch that the loop of ENCODE takes (rules R86, R126). -/
theorem exec_source_next {i : Instr} (hd : decodeSource s.code (xByte s) = .ok i) (h : exec i s = .next t) :
    s.phase = .encScan ∧ s.si < xLen s ∧ (xByte s = Config.delim ∨ s.code.toNat ≤ 254) ∧ t = encByte s := by
  unfold decodeSource at hd
  split at hd
  · rename_i hz
    replace hz : xByte s = Config.delim := hz
    cases hd
    simp only [exec, execEncZero] at h
    split at h
    · rename_i hg
      simp only [atSourceByte, Bool.and_eq_true, decide_eq_true_eq] at hg
      cases h; exact ⟨hg.1.1, hg.1.2, .inl hz, by rw [encByte, if_pos hz]⟩
    · cases h
  · rename_i hz
    replace hz : ¬ xByte s = Config.delim := hz
    split at hd
    · rename_i hc
      cases hd
      simp only [exec, execEncData] at h
      split at h
      · rename_i hg
        simp only [atSourceByte, Bool.and_eq_true, decide_eq_true_eq] at hg
        cases h
        exact ⟨hg.1.1.1.1, hg.1.1.1.2, .inr (by omega), by rw [encByte, if_neg hz, if_pos hc]⟩
      · cases h
    · rename_i hc
      split at hd
      · cases hd
        simp only [exec, execEncDataFull] at h
        split at h
        · rename_i hg
          simp only [atSourceByte, Bool.and_eq_true, decide_eq_true_eq] at hg
          cases h
          exact ⟨hg.1.1.1.1, hg.1.1.1.2, .inr (by omega), by rw [encByte, if_neg hz, if_neg hc]⟩
        · cases h
      · cases hd

/-- The frame byte at an Overhead position selects exactly the branch that the loop of DECODE takes (rules R84, R150). -/
theorem exec_overhead_next (h : exec (decodeOverhead (frameByte s)) s = .next t) :
    s.phase = .decScan ∧ scanRuns s = true ∧ t = decByte s := by
  unfold decodeOverhead at h
  split at h
  · rename_i hz
    simp only [exec, execOvhEnd] at h
    split at h
    · rename_i hg
      simp only [atOverhead, atFrameByte, Bool.and_eq_true, decide_eq_true_eq, beq_iff_eq] at hg
      cases h
      exact ⟨hg.1.1.1, hg.1.1.2, by rw [decByte, if_pos hg.1.2, if_pos hg.2]⟩
    · cases h
  · rename_i hz
    replace hz : ¬ frameByte s = Config.delim := hz
    split at h
    · rename_i hf
      simp only [exec, execOvhFull] at h
      split at h
      · rename_i hg
        simp only [atOverhead, atFrameByte, Bool.and_eq_true, decide_eq_true_eq, beq_iff_eq] at hg
        cases h
        exact ⟨hg.1.1.1, hg.1.1.2, by rw [decByte, if_pos hg.1.2, if_neg hz, if_pos hg.2]⟩
      · cases h
    · rename_i hf
      replace hf : ¬ frameByte s = Config.ovhFull := hf
      simp only [exec, execOvhBlk] at h
      split at h
      · rename_i hg
        simp only [atOverhead, atFrameByte, Bool.and_eq_true, decide_eq_true_eq, beq_iff_eq] at hg
        cases h
        exact ⟨hg.1.1.1.1.1, hg.1.1.1.1.2, by rw [decByte, if_pos hg.1.1.1.2, if_neg hz, if_neg hf]⟩
      · cases h

/-- The frame byte at a data position is copied (rules R85, R150). -/
theorem exec_data_next (h : exec (.dataCopy (frameByte s)) s = .next t) :
    s.phase = .decScan ∧ scanRuns s = true ∧ t = decByte s := by
  simp only [exec, execDataCopy] at h
  split at h
  · rename_i hg
    simp only [atData, atFrameByte, Bool.and_eq_true, decide_eq_true_eq, bne_iff_ne] at hg
    cases h
    exact ⟨hg.1.1.1, hg.1.1.2, by rw [decByte, if_neg hg.1.2]⟩
  · cases h

/-- Everything a step inside an operation can do. -/
theorem step_busy_next (hb : s.phase ≠ .idle) (h : step s = .next t) :
    (s.phase = .encInit ∧ t = encInitEffect s) ∨
    (s.phase = .encScan ∧ s.si < xLen s ∧ (xByte s = Config.delim ∨ s.code.toNat ≤ 254) ∧ t = encByte s) ∨
    (s.phase = .encScan ∧ s.si = xLen s ∧ t = encFinEffect s) ∨
    (s.phase = .decInit ∧ t = decInitEffect s) ∨
    (s.phase = .decScan ∧ scanRuns s = true ∧ t = decByte s) ∨
    (s.phase = .decScan ∧ s.term = false ∧ s.fi = s.inp.len ∧ t = decEoiEffect s) ∨
    (scanOver s = true ∧ t = decValidateEffect s) := by
  have hbusy : busy s = true := by simpa [busy] using hb
  rw [step, if_pos hbusy, runBusy, runDecoded] at h
  unfold nextBytes nextContext at h
  cases hp : s.phase with
  | idle => exact absurd hp hb
  | encInit =>
    simp only [hp, decode, decodePoint, exec, execEncInit, if_true] at h
    cases h; exact .inl ⟨rfl, rfl⟩
  | encScan =>
    by_cases hsi : s.si < xLen s
    · simp only [hp, hsi, if_true, decode] at h
      cases hd : decodeSource s.code (xByte s) with
      | error e => simp [hd] at h
      | ok i =>
        simp only [hd] at h
        have := exec_source_next hd h
        exact .inr (.inl ⟨rfl, this.2⟩)
    · simp only [hp, hsi, if_false, decode, decodePoint, exec, execEncFin, true_and] at h
      split at h
      · cases h; exact .inr (.inr (.inl ⟨rfl, ‹_›, rfl⟩))
      · cases h
  | decInit =>
    simp only [hp, decode, decodePoint, exec, execDecInit, if_true] at h
    cases h; exact .inr (.inr (.inr (.inl ⟨rfl, rfl⟩)))
  | decScan =>
    cases ht : s.term with
    | true =>
      simp only [hp, ht, if_true, decode, decodePoint, exec, execDecValidate] at h
      split at h
      · cases h; exact .inr (.inr (.inr (.inr (.inr (.inr ⟨‹_›, rfl⟩)))))
      · cases h
    | false =>
      by_cases hfi : s.fi < s.inp.len
      · by_cases hc : s.cnt = 0x00
        · simp only [hp, ht, hfi, hc, if_true, if_false, decode, Bool.false_eq_true] at h
          have := exec_overhead_next h
          exact .inr (.inr (.inr (.inr (.inl ⟨rfl, this.2⟩))))
        · simp only [hp, ht, hfi, hc, if_true, if_false, decode, Bool.false_eq_true] at h
          have := exec_data_next h
          exact .inr (.inr (.inr (.inr (.inl ⟨rfl, this.2⟩))))
      · simp only [hp, ht, hfi, if_false, decode, decodePoint, exec, execDecEoi, Bool.false_eq_true, true_and] at h
        split at h
        · cases h; exact .inr (.inr (.inr (.inr (.inr (.inl ⟨rfl, rfl, ‹_›, rfl⟩)))))
        · cases h
  | decDone =>
    simp only [hp, decode, decodePoint, exec, execDecValidate] at h
    split at h
    · cases h; exact .inr (.inr (.inr (.inr (.inr (.inr ⟨‹_›, rfl⟩)))))
    · cases h

/-! ## The step of an idle instance -/

/-- Everything the step of an idle instance can do; `p` is the state with the host's buffer in `IN`. -/
theorem step_idle_next (hi : s.phase = .idle) (h : step s = .next t) :
    (s.host = [] ∧ t = s) ∨
    (∃ rest, s.host = .reset :: rest ∧ t = resetEvent rest s) ∨
    ∃ op input rest p, p = present input rest s ∧
      ((s.host = .issue op input :: rest ∨ s.host = .issueStepped op input :: rest ∧ op ≠ 0b01 ∧ op ≠ 0b10) ∧
          exec (decodeOp op) p = .next t ∨
        s.host = .issueStepped op input :: rest ∧
          (op = 0b01 ∧ payloadFits p = true ∧ t = beginEncode p ∨ op = 0b10 ∧ frameFits p = true ∧ t = beginDecode p)) := by
  have hbusy : ¬ busy s = true := by simp [busy, hi]
  rw [step, if_neg hbusy] at h
  unfold runIdle at h
  split at h
  · cases h; exact .inl ⟨‹_›, rfl⟩
  · cases h; exact .inr (.inl ⟨_, ‹_›, rfl⟩)
  · rename_i op input rest hh
    rw [runDecoded, decode_opByte] at h
    exact .inr (.inr ⟨op, input, rest, _, rfl, .inl ⟨.inl hh, h⟩⟩)
  · rename_i op input rest hh
    refine .inr (.inr ⟨op, input, rest, _, rfl, ?_⟩)
    have hop : op = 0b00 ∨ op = 0b01 ∨ op = 0b10 ∨ op = 0b11 := by
      clear h hh; revert op; decide
    unfold runStepped at h
    rcases hop with rfl | rfl | rfl | rfl
    · rw [if_neg (by decide), if_neg (by decide), runDecoded, decode_opByte] at h
      exact .inl ⟨.inr ⟨hh, by decide, by decide⟩, h⟩
    · rw [if_pos (by decide)] at h
      split at h
      · cases h; exact .inr ⟨hh, .inl ⟨rfl, ‹_›, rfl⟩⟩
      · cases h
    · rw [if_neg (by decide), if_pos (by decide)] at h
      split at h
      · cases h; exact .inr ⟨hh, .inr ⟨rfl, ‹_›, rfl⟩⟩
      · cases h
    · rw [if_neg (by decide), if_neg (by decide), runDecoded, decode_opByte] at h
      exact .inl ⟨.inr ⟨hh, by decide, by decide⟩, h⟩

/-! ## A run of several steps -/

/-- A run of any core goes on from the next state of its first step. -/
theorem coreRun_of_next (M : Host.Core) (k : Nat) {s t : M.State} (h : M.step s = .next t) : M.run (k + 1) s = M.run k t := by
  simp only [Host.Core.run, h]

/-- A run of any core stops at a refusal of its first step. -/
theorem coreRun_of_refused (M : Host.Core) (k : Nat) {s : M.State} {r : M.Refusal} (h : M.step s = .refused r) :
    M.run (k + 1) s = .refused r := by
  simp only [Host.Core.run, h]

/-- A run goes on from the next state of its first step. -/
theorem run_of_next (k : Nat) (h : step s = .next t) :
    (Sys2Proof.core.run (k + 1) s : Host.Outcome State Fault Refusal) = Sys2Proof.core.run k t :=
  coreRun_of_next Sys2Proof.core k h

/-- A run stops at a refusal of its first step. -/
theorem run_of_refused (k : Nat) {r : Refusal} (h : step s = .refused r) :
    (Sys2Proof.core.run (k + 1) s : Host.Outcome State Fault Refusal) = .refused r :=
  coreRun_of_refused Sys2Proof.core k h

end Sys2Proof.Machine
end

