-- ==== Sys2Proof/Tests/Slice0.lean ====
section
/-! SUPPORT. The model's own tests: ill-formed terms refused, words of the opcode table decoded, one step per test with the
results of the spec's examples and vectors (the rule or vector is named in the comment), and for every statement with hypotheses a
state that meets them. -/

namespace Sys2Proof.Tests

open Sys2Proof Sys2Proof.Machine

/-! ## Small states -/

/-- An idle instance with both capacities, an input buffer and a Store. -/
def idleState (cap : Option Nat) (input store : List Byte) : State :=
  { State.reset with params := ⟨cap, cap, none, none⟩, inp := Buffer.ofBytes input, store := Buffer.ofBytes store }

/-- An instance inside the scan of DECODE. -/
def scanState (f : List Byte) (fi : Nat) (cnt : Byte) (first prevFull : Bool) (rb : List Byte) : State :=
  { State.reset with
    phase := .decScan, inp := Buffer.ofBytes f, fi := fi, cnt := cnt, first := first, prevFull := prevFull,
    rb := Buffer.ofBytes rb }

/-- An instance inside the scan of ENCODE. -/
def encState (p : List Byte) (si slot wr : Nat) (code : Byte) (out : Memory) : State :=
  { State.reset with
    phase := .encScan, inp := Buffer.ofBytes p, acc := xorFold p, si := si, slot := slot, wr := wr, code := code,
    out := ⟨out, 0⟩ }

/-- An instance whose scan of DECODE has ended. -/
def doneState (rb store : List Byte) : State :=
  { State.reset with phase := .decDone, rb := Buffer.ofBytes rb, store := Buffer.ofBytes store }

/-- The next state of one instruction, seen through a reading of it. -/
def after {α : Type} (f : State → α) (i : Instr) (s : State) : Option α := (nextState? (exec i s)).map f

/-- `OUT[0 .. OUT_LEN-1]` after one instruction. -/
def outAfter (i : Instr) (s : State) : Option (List Byte) := after (fun t => bytesOf t .out) i s

/-- `OK` and the Store after one instruction. -/
def verdictAfter (i : Instr) (s : State) : Option (Bool × List Byte) := after (fun t => (t.ok, bytesOf t .store)) i s

/-! ## WellFormed: an ill-formed term for each check -/

theorem test_wf_ovhBlk_zero : (Instr.ovhBlk 0x00).wellFormed = false := by decide
theorem test_wf_ovhBlk_full : (Instr.ovhBlk 0xFF).wellFormed = false := by decide
theorem test_wf_encData_zero : (Instr.encData 0x00).wellFormed = false := by decide
theorem test_wf_encDataFull_zero : (Instr.encDataFull 0x00).wellFormed = false := by decide
theorem test_wf_ovhBlk_limits : (Instr.ovhBlk 0x01).wellFormed = true ∧ (Instr.ovhBlk 0xFE).wellFormed = true := by decide
theorem test_wf_dataCopy_zero : (Instr.dataCopy 0x00).wellFormed = true := by decide

/-! ## Decode: words written out from the opcode table, one for every constructor -/

theorem test_decode_checksum : decode .hostop [0b00000000#8] = .ok (.checksum, []) := rfl
theorem test_decode_encode : decode .hostop [0b00000001#8] = .ok (.encode, []) := rfl
theorem test_decode_decode : decode .hostop [0b00000010#8] = .ok (.decode, []) := rfl
theorem test_decode_getmsg : decode .hostop [0b00000011#8] = .ok (.getmsg, []) := rfl
theorem test_decode_ovhEnd : decode .overhead [0b00000000#8] = .ok (.ovhEnd, []) := rfl
theorem test_decode_ovhFull : decode .overhead [0b11111111#8] = .ok (.ovhFull, []) := rfl
theorem test_decode_ovhBlk : decode .overhead [0b11111110#8] = .ok (.ovhBlk 0xFE, []) := rfl
theorem test_decode_dataCopy : decode .data [0b00000000#8] = .ok (.dataCopy 0x00, []) := rfl
theorem test_decode_encZero : decode (.source 0xFE) [0b00000000#8] = .ok (.encZero, []) := rfl
theorem test_decode_encData : decode (.source 0xFD) [0b00000011#8] = .ok (.encData 0x03, []) := rfl
theorem test_decode_encDataFull : decode (.source 0xFE) [0b00000011#8] = .ok (.encDataFull 0x03, []) := rfl
theorem test_decode_encInit : decode (.point .encInit) [] = .ok (.encInit, []) := rfl
theorem test_decode_encFin : decode (.point .encFin) [] = .ok (.encFin, []) := rfl
theorem test_decode_decInit : decode (.point .decInit) [] = .ok (.decInit, []) := rfl
theorem test_decode_decEoi : decode (.point .decEoi) [] = .ok (.decEoi, []) := rfl
theorem test_decode_decValidate : decode (.point .decValidate) [] = .ok (.decValidate, []) := rfl

/-- Bytes that name no operation, a missing byte, and a `CODE` that no rule enables are refused by name. -/
theorem test_decode_refusals :
    decode .hostop [0x04] = .error .opTooWide ∧ decode .overhead [] = .error .noByte ∧
      decode (.source 0xFF) [0x01] = .error .codeOutOfRange := ⟨rfl, rfl, rfl⟩

/-- The same value at the two kinds of position (rule R88: 0x03). -/
theorem test_decode_by_position :
    decode .overhead [0x03, 0x01] = .ok (.ovhBlk 0x03, [0x01]) ∧ decode .data [0x03, 0x01] = .ok (.dataCopy 0x03, [0x01]) :=
  ⟨rfl, rfl⟩

/-- Bare words of the table: the codes of `OP`, then bytes at an Overhead position (log entry 17). -/
theorem test_tableWord :
    decodeTableWord 2 0 = some .checksum ∧ decodeTableWord 8 3 = some .getmsg ∧ decodeTableWord 8 0xFF = some .ovhFull ∧
      decodeTableWord 8 0x04 = some (.ovhBlk 0x04) ∧ decodeTableWord 8 0x100 = none ∧ decodeTableWord 0 0 = none := by
  decide

/-- The step after a word has been placed runs its instruction, as the first one after reset. -/
theorem test_withFetchWord :
    (nextState? (step (State.reset.withFetchWord 8 1))).map (fun t => bytesOf t .out) = some [0x01, 0x01, 0x00] ∧
      (nextState? (step (State.reset.withFetchWord 8 0xFF))).map (fun t => (t.cnt, t.prevFull)) = some (0xFE, true) := by
  decide +kernel

/-! ## Checksum engine and host operations -/

/-- Vector CV9 and vector CV1. -/
theorem test_checksum :
    after State.res .checksum (idleState none [0x12, 0x34, 0x56, 0x78] []) = some 0x08 ∧
      after State.res .checksum (idleState none [] []) = some 0x00 := by decide +kernel

/-- The source's example, rule R137 (vector EV5). -/
theorem test_encode_example :
    outAfter .encode (idleState none [0x01, 0x02, 0x03] []) = some [0x04, 0x01, 0x02, 0x03, 0x01, 0x00] := by decide +kernel

/-- The source's example, rule R179 (vector DV3), over an older Store. -/
theorem test_decode_example :
    verdictAfter .decode (idleState none [0x04, 0x01, 0x02, 0x03, 0x01, 0x00] [0xAA]) =
      some (true, [0x01, 0x02, 0x03]) := by decide +kernel

/-- Vector DV18: a mismatch leaves the Store. -/
theorem test_decode_mismatch :
    verdictAfter .decode (idleState none [0x04, 0x01, 0x02, 0x07, 0x01, 0x00] [0xAA]) = some (false, [0xAA]) := by
  decide +kernel

/-- The worked example of rule R200. -/
theorem test_getmsg :
    outAfter .getmsg (idleState none [0x55] [0x01, 0x02, 0x03]) = some [0x01, 0x02, 0x03] := by decide +kernel

/-! ## Micro-steps of ENCODE: the examples of rules R121 to R125 -/

theorem test_encInit :
    after (fun t => (t.slot, t.wr, t.code)) .encInit { State.reset with phase := .encInit, slot := 9, wr := 9, code := 9 } =
      some (0, 1, 0x01) := by decide +kernel

theorem test_encZero :
    after (fun t => (memRead t .out 0, t.slot, t.wr, t.code)) .encZero
        (encState [0x01, 0x02, 0x03] 3 0 4 0x04 [(1, 0x01), (2, 0x02), (3, 0x03)]) = some (0x04, 4, 5, 0x01) := by
  decide +kernel

theorem test_encData :
    after (fun t => (memRead t .out 1, t.slot, t.wr, t.code)) (.encData 0x01) (encState [0x01] 0 0 1 0x01 []) =
      some (0x01, 0, 2, 0x02) := by decide +kernel

theorem test_encDataFull :
    after (fun t => (memRead t .out 254, memRead t .out 0, t.slot, t.wr, t.code)) (.encDataFull 0x01)
        (encState [0x01] 0 0 254 0xFE []) = some (0x01, 0xFF, 255, 256, 0x01) := by decide +kernel

theorem test_encFin :
    after (fun t => (memRead t .out 4, memRead t .out 5, t.out.len)) .encFin
        (encState [0x01, 0x02, 0x03] 4 4 5 0x01 [(0, 0x04), (1, 0x01), (2, 0x02), (3, 0x03)]) =
      some (0x01, 0x00, 6) := by decide +kernel

/-! ## Micro-steps of DECODE: the examples of rules R151 to R156, R168 -/

theorem test_decInit :
    after (fun t => (t.cnt, t.first, bytesOf t .rb)) .decInit
        { scanState [0x05] 1 0x04 false true [0x07] with phase := .decInit } = some (0x00, true, []) := by decide +kernel

theorem test_ovhEnd :
    after (fun t => (t.term, t.fi, bytesOf t .rb)) .ovhEnd
        (scanState [0x03, 0x01, 0x01, 0x00] 3 0x00 false false [0x01, 0x01]) = some (true, 4, [0x01, 0x01]) := by
  decide +kernel

theorem test_ovhBlk :
    after (fun t => (bytesOf t .rb, t.cnt)) (.ovhBlk 0x01)
        (scanState [0x04, 0x01, 0x02, 0x03, 0x01, 0x00] 4 0x00 false false [0x01, 0x02, 0x03]) =
      some ([0x01, 0x02, 0x03, 0x00], 0x00) := by decide +kernel

/-- After a full block nothing is restored (rule R154's example at `FI = 255`). -/
theorem test_ovhBlk_after_full :
    after (fun t => (bytesOf t .rb, t.prevFull)) (.ovhBlk 0x01) (scanState [0x01, 0x00] 0 0x00 false true [0x01]) =
      some ([0x01], false) := by decide +kernel

theorem test_ovhFull :
    after (fun t => (t.cnt, t.prevFull, bytesOf t .rb)) .ovhFull (scanState [0xFF, 0x01] 0 0x00 true false []) =
      some (0xFE, true, []) := by decide +kernel

/-- A full block that follows a short one still gets its 0x00 (rule R154). -/
theorem test_ovhFull_after_short :
    after (fun t => bytesOf t .rb) .ovhFull (scanState [0x02, 0x07, 0xFF] 2 0x00 false false [0x07]) = some [0x07, 0x00] := by
  decide +kernel

theorem test_dataCopy :
    after (fun t => (bytesOf t .rb, t.cnt)) (.dataCopy 0x01) (scanState [0x04, 0x01] 1 0x03 false false []) =
      some ([0x01], 0x02) := by decide +kernel

/-- A 0x00 at a data position is copied (vector DV26). -/
theorem test_dataCopy_zero :
    after (fun t => (bytesOf t .rb, t.term)) (.dataCopy 0x00) (scanState [0x02, 0x00, 0x00] 1 0x01 false false []) =
      some ([0x00], false) := by decide +kernel

/-- The input ends inside a block: `CNT` is left (vector DV23). -/
theorem test_decEoi :
    after (fun t => (t.term, t.cnt, bytesOf t .rb)) .decEoi
        (scanState [0x05, 0x01, 0x01] 3 0x02 false false [0x01, 0x01]) = some (false, 0x02, [0x01, 0x01]) := by decide +kernel

/-- Vector DV22's validation, and vector DV13's. -/
theorem test_decValidate :
    verdictAfter .decValidate (doneState [0x01, 0x01] [0xAA]) = some (true, [0x01]) ∧
      verdictAfter .decValidate (doneState [] [0xAA]) = some (false, [0xAA]) := by decide +kernel

/-- Vector DV17: a single byte that is not 0x00 is a mismatch. -/
theorem test_decValidate_single :
    verdictAfter .decValidate (doneState [0x07] [0xAA]) = some (false, [0xAA]) := by decide +kernel

/-! ## Guards: a micro-step away from its place is refused by name -/

theorem test_guard_ovhBlk_at_data :
    exec (.ovhBlk 0x01) (scanState [0x02, 0x01] 1 0x01 false false []) = .refused .stepNotEnabled := rfl

theorem test_guard_encData_wrong_byte : exec (.encData 0x02) (encState [0x01] 0 0 1 0x01 []) = .refused .stepNotEnabled := rfl

/-! ## Witnesses: states and operands that meet the hypotheses of the statements -/

theorem test_witness_OverheadByteSelectsByItsValue :
    atOverhead (scanState [0x04] 0 0x00 true false []) = true ∧ (0x01#8 ≠ 0x00#8 ∧ 0x01#8 ≠ 0xFF#8) ∧
      (0xFE#8 ≠ 0x00#8 ∧ 0xFE#8 ≠ 0xFF#8) := by decide +kernel

theorem test_witness_DataByteIsAlwaysCopied : atData (scanState [0x02, 0x00] 1 0x01 false false []) = true := by
  decide +kernel

theorem test_witness_SourceByteSelectsByItsValue :
    atSourceByte (encState [] 0 0 1 0x01 []) = true ∧ (0xFD#8).toNat ≤ 253 ∧ (0xFE#8).toNat = 254 ∧ 0xFF#8 ≠ 0x00#8 := by
  decide +kernel

theorem test_witness_DecodeOfEncodeIsTheInstruction :
    ((Instr.encData 0xFF).wellFormed = true ∧ (Context.source 0xFD).admits (.encData 0xFF) = true) ∧
      ((Instr.encDataFull 0x01).wellFormed = true ∧ (Context.source 0xFE).admits (.encDataFull 0x01) = true) ∧
      ((Instr.ovhBlk 0x01).wellFormed = true ∧ Context.overhead.admits (.ovhBlk 0x01) = true) := by decide

theorem test_witness_DecodedBytesAreTheEncoding :
    decode .overhead [0x01, 0x00] = .ok (.ovhBlk 0x01, [0x00]) ∧ decode (.source 0xFE) [0x09] = .ok (.encDataFull 0x09, []) :=
  ⟨rfl, rfl⟩

theorem test_witness_StepRunsTheDecodedInstruction :
    ((encState [0x09] 0 0 254 0xFE []).phase ≠ .idle ∧
      decode (nextContext (encState [0x09] 0 0 254 0xFE [])) (nextBytes (encState [0x09] 0 0 254 0xFE [])) =
        .ok (.encDataFull 0x09, [])) ∧
    ((placeOp 0b10 State.reset).phase = .idle ∧ (placeOp 0b10 State.reset).host = [.issue 0b10 []]) ∧
    (∃ s : State, s.phase = .idle ∧ s.host = [.issueStepped 0b11 []]) ∧
    (State.reset.phase = .idle ∧ State.reset.host = []) :=
  ⟨⟨by decide, rfl⟩, ⟨rfl, rfl⟩, ⟨{ State.reset with host := [.issueStepped 0b11 []] }, rfl, rfl⟩, rfl, rfl⟩

/-- ResetGivesTheResetValues and ResetKeepsTheHostsArgument. -/
theorem test_witness_ResetGivesTheResetValues :
    ∃ s : State, s.phase = .idle ∧ s.host = [.reset] ∧ s.ok = true ∧ s.res = 0xFF :=
  ⟨{ State.reset with host := [.reset], ok := true, res := 0xFF }, rfl, rfl, rfl, rfl⟩

theorem test_reset_values : ResetValues State.reset := by
  constructor <;> intros <;> first | rfl | exact ⟨rfl, rfl, rfl⟩

theorem test_witness_AnyOperationMayBeTheFirst :
    ∃ s : State, ResetValues s ∧ s.phase = .idle ∧ s.host = [.issue 0b10 [0x01]] ∧
      Config.fits s.params.nMax 1 = true ∧ Config.fits s.params.frameInMax 1 = true := by
  refine ⟨{ State.reset with host := [.issue 0b10 [0x01]], params := ⟨some 1, some 1, none, none⟩ }, ?_, rfl, rfl, rfl, rfl⟩
  constructor <;> intros <;> first | rfl | exact ⟨rfl, rfl, rfl⟩

theorem test_witness_OperationsOutsideTheirDomainAreRefused :
    (isHostOp .getmsg = true ∧ (encState [] 0 0 1 0x01 []).phase ≠ .idle) ∧
      ((idleState (some 1) [0x01, 0x02] []).phase = .idle ∧ payloadFits (idleState (some 1) [0x01, 0x02] []) = false) ∧
      frameFits (idleState (some 1) [0x01, 0x02] []) = false := by decide +kernel

/-- An operation at exactly its capacity: ChecksumFoldsTheInput, EncodeYieldsTheClosedForm, EncodeLeavesNoInteriorDelimiter,
EncodeYieldsACanonicalFrame, DecodeYieldsTheClosedForm, EmptyReconstructionFails, ReconstructionIsShorterThanTheInput,
GetmsgCopiesTheStore. -/
theorem test_witness_at_capacity :
    (idleState (some 2) [0x01, 0x02] []).phase = .idle ∧ payloadFits (idleState (some 2) [0x01, 0x02] []) = true ∧
      frameFits (idleState (some 2) [0x01, 0x02] []) = true := by decide +kernel

theorem test_witness_XorFoldLaws :
    [0x01#8, 0x02#8].Perm [0x02#8, 0x01#8] ∧ 7 < 8 ∧ xorFold [0x01#8, 0x02#8] = 0x03#8 := by decide

theorem test_witness_EncInitOpensTheFirstBlock : ({ State.reset with phase := .encInit } : State).phase = .encInit := rfl

theorem test_witness_EncZeroClosesTheBlock :
    (encState [] 0 0 1 0x01 []).phase = .encScan ∧ (encState [] 0 0 1 0x01 []).si < xLen (encState [] 0 0 1 0x01 []) ∧
      xByte (encState [] 0 0 1 0x01 []) = 0x00#8 ∧
      (encState [] 0 0 1 0x01 []).slot < (encState [] 0 0 1 0x01 []).wr := by decide +kernel

theorem test_witness_EncDataAppendsTheByte :
    (encState [0x07] 0 0 253 0xFD []).phase = .encScan ∧
      (encState [0x07] 0 0 253 0xFD []).si < xLen (encState [0x07] 0 0 253 0xFD []) ∧
      xByte (encState [0x07] 0 0 253 0xFD []) = 0x07#8 ∧ 0x07#8 ≠ 0x00#8 ∧
      (encState [0x07] 0 0 253 0xFD []).code.toNat ≤ 253 := by decide +kernel

theorem test_witness_EncDataFullClosesTheFullBlock :
    (encState [0x07] 0 0 254 0xFE []).phase = .encScan ∧
      (encState [0x07] 0 0 254 0xFE []).si < xLen (encState [0x07] 0 0 254 0xFE []) ∧
      xByte (encState [0x07] 0 0 254 0xFE []) = 0x07#8 ∧ 0x07#8 ≠ 0x00#8 ∧
      (encState [0x07] 0 0 254 0xFE []).code.toNat = 254 ∧
      (encState [0x07] 0 0 254 0xFE []).slot < (encState [0x07] 0 0 254 0xFE []).wr := by decide +kernel

theorem test_witness_EncFinAppendsTheDelimiter :
    (encState [] 1 1 2 0x01 [(0, 0x01)]).phase = .encScan ∧
      (encState [] 1 1 2 0x01 [(0, 0x01)]).si = xLen (encState [] 1 1 2 0x01 [(0, 0x01)]) ∧
      (encState [] 1 1 2 0x01 [(0, 0x01)]).slot < (encState [] 1 1 2 0x01 [(0, 0x01)]).wr := by decide +kernel

/-- The clauses of EncodeLengthIsExact at their boundary: an Extended Message of 254 bytes with no 0x00 (vector EV11), and one of
254 bytes all 0x00. -/
theorem test_witness_EncodeLengthIsExact :
    (xLen (idleState (some 253) (List.replicate 253 0x01) []) % 254 = 0 ∧
      0x00#8 ∉ extendedMessage (List.replicate 253 0x01) ∧ fullCloses (extendedMessage (List.replicate 253 0x01)) = 1) ∧
    (xLen (idleState (some 253) (List.replicate 253 0x00) []) / 254 = 1 ∧
      fullCloses (extendedMessage (List.replicate 253 0x00)) = 0) := by decide +kernel

theorem test_witness_DecInitStartsAfresh : ({ State.reset with phase := .decInit } : State).phase = .decInit := rfl

/-- The hypotheses of OvhEndStopsTheScan, OvhBlkOpensAShortBlock (the two limits of L, and the three cases of its restoration
test) and OvhFullOpensAFullBlock. -/
theorem test_witness_overhead_steps :
    (atOverhead (scanState [0x00] 0 0x00 true false []) = true ∧
      frameByte (scanState [0x00] 0 0x00 true false []) = 0x00#8) ∧
    (atOverhead (scanState [0x01] 0 0x00 true false []) = true ∧
      frameByte (scanState [0x01] 0 0x00 true false []) = 0x01#8) ∧
    (atOverhead (scanState [0x02, 0x07, 0xFE] 2 0x00 false false [0x07]) = true ∧
      frameByte (scanState [0x02, 0x07, 0xFE] 2 0x00 false false [0x07]) = 0xFE#8) ∧
    (atOverhead (scanState [0x02, 0x07, 0xFE] 2 0x00 false true [0x07]) = true ∧
      frameByte (scanState [0x02, 0x07, 0xFE] 2 0x00 false true [0x07]) = 0xFE#8) ∧
    (atOverhead (scanState [0x02, 0x07, 0xFF] 2 0x00 false false [0x07]) = true ∧
      frameByte (scanState [0x02, 0x07, 0xFF] 2 0x00 false false [0x07]) = 0xFF#8) := by decide +kernel

theorem test_witness_DataCopyAppendsTheByte :
    (scanState [0x02, 0x00] 1 0x01 false false []).phase = .decScan ∧
      scanRuns (scanState [0x02, 0x00] 1 0x01 false false []) = true ∧
      (scanState [0x02, 0x00] 1 0x01 false false []).cnt ≠ 0x00#8 ∧
      frameByte (scanState [0x02, 0x00] 1 0x01 false false []) = 0x00#8 := by decide +kernel

theorem test_witness_DecEoiWritesNothing :
    (scanState [0x05] 1 0x04 false false []).phase = .decScan ∧ (scanState [0x05] 1 0x04 false false []).term = false ∧
      (scanState [0x05] 1 0x04 false false []).fi = (scanState [0x05] 1 0x04 false false []).inp.len := by decide

/-- The three arms of DEC.VALIDATE: EmptyReconstructionFails, MatchingChecksumReplacesTheStore (with the empty message),
MismatchLeavesTheStore. -/
theorem test_witness_validate_arms :
    (scanOver (doneState [] []) = true ∧ (doneState [] []).rb.len = 0) ∧
    (scanOver (doneState [0x00] []) = true ∧ 1 ≤ (doneState [0x00] []).rb.len ∧
      xorFold (bytesOf (doneState [0x00] []) .rb).dropLast =
        memRead (doneState [0x00] []) .rb ((doneState [0x00] []).rb.len - 1)) ∧
    (scanOver (doneState [0x07] []) = true ∧ 1 ≤ (doneState [0x07] []).rb.len ∧
      bytesOf (doneState [0x07] []) .rb = [0x07] ∧
      xorFold (bytesOf (doneState [0x07] []) .rb).dropLast ≠
        memRead (doneState [0x07] []) .rb ((doneState [0x07] []).rb.len - 1)) := by decide +kernel

/-- A state in the middle of a DECODE that meets its invariant: ExactlyOneScanStepIsEnabled. -/
theorem test_witness_ExactlyOneScanStepIsEnabled :
    DecInv (scanState [0x02, 0x07, 0x01] 2 0x00 false false [0x07]) ∧
      (scanState [0x02, 0x07, 0x01] 2 0x00 false false [0x07]).term = false := by
  refine ⟨?_, rfl⟩
  constructor <;> decide +kernel

theorem test_witness_BytesAfterTheDelimiterAreNeverRead :
    ∃ s u t : State, s.phase = .idle ∧ u.phase = .idle ∧ frameFits s = true ∧ frameFits u = true ∧
      bytesOf u .input = bytesOf s .input ++ [0xAA, 0xBB] ∧ u.store = s.store ∧ exec .decode s = .next t ∧ t.term = true :=
  ⟨idleState none [0x03, 0x01, 0x01, 0x00] [], idleState none [0x03, 0x01, 0x01, 0x00, 0xAA, 0xBB] [],
    decodeRun (idleState none [0x03, 0x01, 0x01, 0x00] []), rfl, rfl, rfl, rfl, by decide +kernel, rfl, rfl,
    by decide +kernel⟩

theorem test_witness_ReconstructionIsShorterThanTheInput :
    bytesOf (idleState (some 4) (List.replicate 4 0x01) []) .input = List.replicate (3 + 1) 0x01#8 := by decide +kernel

theorem test_witness_FailedDecodeChangesNothingPersistent :
    ∃ s t : State, s.phase = .idle ∧ exec .decode s = .next t ∧ xorFold (reconstruct (bytesOf s .input)) ≠ 0x00#8 :=
  ⟨idleState none [0x02, 0x07, 0x00] [0xAA], decodeRun (idleState none [0x02, 0x07, 0x00] [0xAA]), rfl, rfl,
    by decide +kernel⟩

theorem test_witness_StoreChangesOnlyByValidationOrReset :
    (nextState? (step (placeOp 0b10 (idleState none [0x03, 0x01, 0x01, 0x00] [])))).map (fun t => bytesOf t .store) =
      some [0x01] := by decide +kernel

/-- A failing DECODE, an ENCODE and a CHECKSUM before the GETMSG. -/
theorem test_witness_GetmsgReturnsTheStoreUnchanged :
    ∃ (s : State) (events : List HostEvent), s.phase = .idle ∧ s.host = events ++ .issue 0b11#2 [] :: [] ∧
      events.length = 3 ∧ ∀ e ∈ events, keepsStore e = true ∧ eventFits s.params e = true :=
  ⟨{ idleState (some 3) [] [0xAA] with
      host := [.issue 0b10 [0x02, 0x07, 0x00], .issue 0b01 [0x01], .issue 0b00 [], .issue 0b11 []] },
    [.issue 0b10 [0x02, 0x07, 0x00], .issue 0b01 [0x01], .issue 0b00 []], rfl, rfl, rfl, by decide +kernel⟩

/-- The Frame of vector DV2 (accepted), then a failing DECODE, before the GETMSG. -/
theorem test_witness_GetmsgReturnsTheMessageOfTheLastSuccess :
    ∃ (s : State) (f : List Byte) (events : List HostEvent), s.phase = .idle ∧
      s.host = .issue 0b10#2 f :: (events ++ .issue 0b11#2 [] :: []) ∧ events.length = 1 ∧
      Config.fits s.params.frameInMax f.length = true ∧ accepts (reconstruct f) = true ∧
      ∀ e ∈ events, keepsStore e = true ∧ eventFits s.params e = true :=
  ⟨{ idleState (some 4) [] [] with
      host := [.issue 0b10 [0x03, 0x01, 0x01, 0x00], .issue 0b10 [0x02, 0x07, 0x00], .issue 0b11 []] },
    [0x03, 0x01, 0x01, 0x00], [.issue 0b10 [0x02, 0x07, 0x00]], rfl, rfl, rfl, rfl, by decide +kernel, by decide +kernel⟩

theorem test_witness_EachElementHasOnlyItsWriters :
    ∃ t : State, exec (.ovhBlk 0x02) (scanState [0x02] 0 0x00 true false []) = .next t ∧ t.cnt = 0x01 :=
  ⟨ovhBlkEffect 0x02 (scanState [0x02] 0 0x00 true false []), rfl, rfl⟩

theorem test_witness_HostOperationsIgnoreLeftoverWorkingState :
    isHostOp .decode = true ∧ isHostOp (.encData 0x01) = false := by decide

theorem test_witness_RepeatedOperationChangesNothing :
    ∃ t : State, exec .decode (idleState none [0x03, 0x01, 0x01, 0x00] []) = .next t ∧ t.ok = true :=
  ⟨decodeRun (idleState none [0x03, 0x01, 0x01, 0x00] []), rfl, by decide +kernel⟩

/-- The invariant in the middle of an ENCODE, and a step from there: StepKeepsTheInvariant, StepAlwaysAnswersWithinCapacity. -/
theorem test_witness_StepKeepsTheInvariant :
    ∃ s t : State, s.Inv ∧ s.phase = .encScan ∧ step s = .next t := by
  refine ⟨encState [0x07] 1 0 2 0x02 [(1, 0x07)], encDataEffect 0x07 (encState [0x07] 1 0 2 0x02 [(1, 0x07)]), ?_, rfl, rfl⟩
  refine ⟨rfl, rfl, rfl, (fun h => absurd rfl h), (fun h => nomatch h), fun _ => ?_, (fun h => nomatch h), (fun h => nomatch h)⟩
  refine ⟨by decide, by decide, rfl, by decide, by decide, by decide, rfl, by decide, rfl, ?_⟩
  intro i hi hs
  have hi1 : i = 1 := by
    change i < 2 at hi; change i ≠ 0 at hs; omega
  subst hi1
  exact ⟨0x07, rfl, by decide⟩

/-- A finite instance in the middle of a DECODE: StepStaysWithinCapacity. -/
theorem test_witness_StepStaysWithinCapacity :
    ∃ s t : State, s.Inv ∧ s.WithinCapacity ∧ s.params.frameInMax = some 2 ∧ step s = .next t := by
  refine ⟨{ scanState [0x02, 0x07] 1 0x01 false false [] with params := ⟨some 2, some 2, none, none⟩ }, _, ?_, ?_, rfl, rfl⟩
  · refine ⟨rfl, rfl, rfl, (fun _ => rfl), (fun h => nomatch h), (fun h => nomatch h), fun _ => ?_, (fun h => nomatch h)⟩
    constructor <;> decide +kernel
  · exact ⟨fun _ => rfl, fun _ => rfl, fun m _ => Nat.zero_le _, fun m _ => Nat.zero_le _⟩

/-- EncodeEqualsItsMicroSteps and DecodeEqualsItsMicroSteps, and the refused form of both. -/
theorem test_witness_micro_steps :
    ∃ s u : State, (s.phase = .idle ∧ s.host = [.issueStepped 0b01 [0x01]]) ∧
      (u.phase = .idle ∧ u.host = [.issueStepped 0b10 [0x01]] ∧ u.params.frameInMax = some 0) :=
  ⟨{ State.reset with host := [.issueStepped 0b01 [0x01]] },
    { State.reset with host := [.issueStepped 0b10 [0x01]], params := ⟨some 0, some 0, none, none⟩ },
    ⟨rfl, rfl⟩, rfl, rfl, rfl⟩

/-- The Frame of the source's example, decoded by a second instance: DecodeInvertsEncode. -/
theorem test_witness_DecodeInvertsEncode :
    ∃ s u t : State, s.phase = .idle ∧ exec .encode s = .next t ∧ u.phase = .idle ∧ frameFits u = true ∧
      bytesOf u .input = bytesOf t .out :=
  ⟨idleState none [0x01, 0x02, 0x03] [], idleState none [0x04, 0x01, 0x02, 0x03, 0x01, 0x00] [0xAA],
    encodeRun (idleState none [0x01, 0x02, 0x03] []), rfl, rfl, rfl, rfl, by decide +kernel⟩

theorem test_witness_EmptyPayloadRoundTrips :
    (payloadFits (idleState (some 0) [] []) = true ∧ (idleState (some 0) [] []).inp.len = 0) ∧
      frameFits (idleState (some 3) [0x01, 0x01, 0x00] []) = true ∧
      bytesOf (idleState (some 3) [0x01, 0x01, 0x00] []) .input = [0x01#8, 0x01#8, 0x00#8] := by decide +kernel

theorem test_witness_FramingIsABijectionOntoCanonicalFrames : CanonicalFrame [0x02, 0x07, 0x01, 0x00] :=
  ⟨[⟨0x02, [0x07]⟩], ⟨0x01, []⟩, by decide, by decide, by decide⟩

/-- The data byte 03 of the source's example changed to 07 (vector DV18): OneChangedDataByteIsDetected. -/
theorem test_witness_OneChangedDataByteIsDetected :
    ∃ s t u : State, s.phase = .idle ∧ exec .encode s = .next t ∧
      isDataPosition t.out.len (bytesOf t .out) 3 = true ∧ 0x07 ≠ memRead t .out 3 ∧
      u.phase = .idle ∧ frameFits u = true ∧ bytesOf u .input = (bytesOf t .out).set 3 0x07 :=
  ⟨idleState none [0x01, 0x02, 0x03] [], encodeRun (idleState none [0x01, 0x02, 0x03] []),
    idleState none [0x04, 0x01, 0x02, 0x07, 0x01, 0x00] [0xAA], rfl, rfl, by decide +kernel, by decide +kernel, rfl, rfl,
    by decide +kernel⟩

/-- Vector DV19: RaisedLastOverheadIsAccepted. -/
theorem test_witness_RaisedLastOverheadIsAccepted :
    ∃ s t u : State, s.phase = .idle ∧ exec .encode s = .next t ∧
      ([⟨0x04, [0x01, 0x02, 0x03]⟩] ++ [⟨0x01, []⟩] : List Block).all blockWf = true ∧
      bytesOf t .out = frameBytes ([⟨0x04, [0x01, 0x02, 0x03]⟩] ++ [⟨0x01, []⟩]) ∧
      u.phase = .idle ∧ frameFits u = true ∧
      bytesOf u .input = frameBytes ([⟨0x04, [0x01, 0x02, 0x03]⟩] ++ [⟨0x01 + 1, []⟩]) :=
  ⟨idleState none [0x01, 0x02, 0x03] [], encodeRun (idleState none [0x01, 0x02, 0x03] []),
    idleState none [0x04, 0x01, 0x02, 0x03, 0x02, 0x00] [], rfl, rfl, by decide, by decide +kernel, rfl, rfl,
    by decide +kernel⟩

/-- Vector DV32, and the last block of vector DV28: DecodeAcceptsMoreThanEncodeProduces. -/
theorem test_witness_DecodeAcceptsMoreThanEncodeProduces :
    (∃ s t u : State, s.phase = .idle ∧ exec .encode s = .next t ∧ u.phase = .idle ∧ frameFits u = true ∧
      bytesOf u .input = (bytesOf t .out).dropLast) ∧
    ([⟨0xFF, List.replicate 254 0x01⟩] : List Block).all blockWf = true :=
  ⟨⟨idleState none [0x01, 0x02, 0x03] [], encodeRun (idleState none [0x01, 0x02, 0x03] []),
    idleState none [0x04, 0x01, 0x02, 0x03, 0x01] [], rfl, rfl, rfl, rfl, by decide +kernel⟩, by decide +kernel⟩

end Sys2Proof.Tests
end

section
/-! PROOFS. What a byte of the frame selects at a data position of the scan, and what DATA.COPY does there (rules R85, R155). -/

namespace Sys2Proof.Machine

open Sys2Proof

variable {s : State}

/-- The data position of rules R27 and R85, register by register. -/
theorem atData_iff :
    atData s = true ↔ s.phase = .decScan ∧ s.term = false ∧ s.fi < s.inp.len ∧ s.cnt ≠ 0x00 := by
  simp [atData, atFrameByte, scanRuns, and_assoc]

theorem nextContext_of_atData (h : atData s = true) : nextContext s = .data := by
  obtain ⟨hphase, hterm, hfi, hcnt⟩ := atData_iff.1 h
  simp only [nextContext, hphase, hterm, hfi, hcnt, Bool.false_eq_true, if_true, if_false]

theorem nextBytes_of_atData (h : atData s = true) : nextBytes s = [frameByte s] := by
  rw [nextBytes, nextContext_of_atData h]

/-- At a data position the guard of DATA.COPY holds for the byte under the scan index, whatever its value (rule R155). -/
theorem exec_dataCopy_of_atData (h : atData s = true) :
    exec (.dataCopy (frameByte s)) s = .next (dataCopyEffect (frameByte s) s) := by
  simp [exec, execDataCopy, h]

theorem bytesOf_rb_dataCopyEffect (b : Byte) (s : State) :
    bytesOf (dataCopyEffect b s) .rb = bytesOf s .rb ++ [b] :=
  Buffer.firstBytes_append .rb s.rb b

/-- Settles O3: the DATA row has no test on the byte, a data position is where that row is matched, and the guard of DATA.COPY
asks for no more than the position. -/
theorem dataByteIsAlwaysCopied : Obligations.DataByteIsAlwaysCopied := by
  refine ⟨fun b rest => rfl, fun s h => ⟨nextContext_of_atData h, nextBytes_of_atData h, ?_⟩⟩
  exact ⟨dataCopyEffect (frameByte s) s, exec_dataCopy_of_atData h, bytesOf_rb_dataCopyEffect (frameByte s) s⟩

end Sys2Proof.Machine
end

section
/-! PROOFS. What ENC.DATA and ENC.FIN do (rules R123, R125), and the shape of ENCODE's output (rules R133, R134). -/

namespace Sys2Proof.Machine

open Sys2Proof

variable {s t : State} {f : List Byte}

/-! ## Reads of the four buffers -/

/-- An update that writes no buffer but `OUT` keeps every byte that it keeps in `OUT`. -/
theorem bytesKeptExcept_out {stored : Nat → Prop} (hinp : t.inp = s.inp) (hrb : t.rb = s.rb) (hstore : t.store = s.store)
    (hout : ∀ i, ¬ stored i → t.out.read .out i = s.out.read .out i) :
    BytesKeptExcept (fun sp i => sp = .out ∧ stored i) s t := by
  intro sp i hkept
  cases sp with
  | input => simp [memRead, hinp]
  | out => exact hout i fun h => hkept ⟨rfl, h⟩
  | rb => simp [memRead, hrb]
  | store => simp [memRead, hstore]

theorem bytesOf_getElem? (s : State) (sp : Space) {i : Nat} (h : i < (s.buf sp).len) :
    (bytesOf s sp)[i]? = some (memRead s sp i) := by
  have hlen : i < (bytesOf s sp).length := by simpa using h
  rw [List.getElem?_eq_getElem hlen, bytesOf_getElem]

/-! ## ENC.DATA and ENC.FIN -/

/-- The guard of ENC.DATA, register by register (rule R123). -/
theorem exec_encData_of_enabled {b : Byte} (hphase : s.phase = .encScan) (hsi : s.si < xLen s) (hb : xByte s = b)
    (hne : b ≠ Config.delim) (hcode : s.code.toNat ≤ 253) : exec (.encData b) s = .next (encDataEffect b s) := by
  simp [exec, execEncData, atSourceByte, hphase, hsi, hb, hne, hcode]

/-- Settles O16: the guard holds, `CODE` is too small to wrap, and the one write is at `WR`. -/
theorem encDataAppendsTheByte : Obligations.EncDataAppendsTheByte := by
  intro s b hphase hsi hb hne hcode
  refine ⟨encDataEffect b s, exec_encData_of_enabled hphase hsi hb hne hcode, encDataEffect_eq s b, ?_, rfl, ?_, ?_⟩
  · change (s.code + 1).toNat = s.code.toNat + 1
    bv_omega
  · exact (Buffer.read_write .out s.out s.wr s.wr b).trans (if_pos rfl)
  · exact bytesKeptExcept_out rfl rfl rfl fun i hi => (Buffer.read_write .out s.out s.wr i b).trans (if_neg hi)

theorem exec_encFin_of_exhausted (hphase : s.phase = .encScan) (hsi : s.si = xLen s) :
    exec .encFin s = .next (encFinEffect s) := by
  simp [exec, execEncFin, hphase, hsi]

/-- Every byte below the new `OUT_LEN` after ENC.FIN: the Delimiter at `WR`, the backpatch at `SLOT`, the others as they were
(rule R125). -/
theorem read_out_encFinEffect {i : Nat} (h : i ≤ s.wr) :
    (encFinEffect s).out.read .out i =
      if i = s.wr then Config.delim else if i = s.slot then s.code else s.out.read .out i := by
  rw [encFinEffect_out, Buffer.read_setLen _ _ (Nat.lt_succ_of_le h), Buffer.read_write, Buffer.read_write]

/-- Settles O18: each byte that ENC.FIN leaves valid is given by `read_out_encFinEffect`. -/
theorem encFinAppendsTheDelimiter : Obligations.EncFinAppendsTheDelimiter := by
  intro s hphase hsi
  refine ⟨encFinEffect s, exec_encFin_of_exhausted hphase hsi, rfl, rfl, ?_, ?_, ?_⟩
  · intro hslot
    change (encFinEffect s).out.read .out s.slot = s.code
    rw [read_out_encFinEffect hslot.le, if_neg hslot.ne, if_pos rfl]
  · exact (read_out_encFinEffect le_rfl).trans (if_pos rfl)
  · refine bytesKeptExcept_out rfl rfl rfl fun i hi => ?_
    obtain ⟨hslot, hwr⟩ : i ≠ s.slot ∧ i < s.wr := by omega
    rw [read_out_encFinEffect hwr.le, if_neg hwr.ne, if_neg hslot]

/-! ## Frames are closed under the emission of one more block -/

/-- The Block of data `d`, with the Overhead value that rule R82 gives it. -/
def blockOf (d : List Byte) : Block := ⟨BitVec.ofNat 8 (d.length + 1), d⟩

@[simp] theorem blockOf_data (d : List Byte) : (blockOf d).data = d := rfl

theorem blockBytes_blockOf (d : List Byte) : blockBytes (blockOf d) = shortBlock d := rfl

theorem toNat_overhead_blockOf {d : List Byte} (h : d.length ≤ 254) : (blockOf d).overhead.toNat = d.length + 1 :=
  Nat.mod_eq_of_lt (by omega)

theorem blockWf_blockOf {d : List Byte} (hlen : d.length ≤ 254) (hd : Config.delim ∉ d) : blockWf (blockOf d) = true := by
  have hover := toNat_overhead_blockOf hlen
  have hne : (blockOf d).overhead ≠ Config.delim := fun h => by
    rw [h] at hover
    exact (Nat.succ_ne_zero d.length).symm hover
  have hdata : d.all (fun c => c != Config.delim) = true :=
    List.all_eq_true.2 fun c hc => bne_iff_ne.2 fun h => hd (h ▸ hc)
  simp [blockWf, hover, hne, hdata]

/-- A block of 254 data bytes is the full block that ENC.DATA.FULL emits (rule R124). -/
theorem shortBlock_of_length_eq {d : List Byte} (h : d.length = 254) : shortBlock d = Config.ovhFull :: d := by
  rw [shortBlock, h]; rfl

/-- One short block and the Delimiter are a canonical Frame. -/
theorem canonicalFrame_shortBlock {d : List Byte} (hlen : d.length ≤ 253) (hd : Config.delim ∉ d) :
    CanonicalFrame (shortBlock d ++ [Config.delim]) := by
  refine ⟨[], blockOf d, ?_, fun h => ?_, ?_⟩
  · simpa using blockWf_blockOf (by omega) hd
  · have hover := toNat_overhead_blockOf (show d.length ≤ 254 by omega)
    rw [h] at hover
    have hfull : Config.ovhFull.toNat = 255 := rfl
    omega
  · simp [frameBytes, blockBytes_blockOf]

/-- A canonical Frame with one more well-formed Block before it is canonical. -/
theorem CanonicalFrame.cons {b : Block} (hb : blockWf b = true) (h : CanonicalFrame f) :
    CanonicalFrame (blockBytes b ++ f) := by
  obtain ⟨blocks, last, hwf, hlast, rfl⟩ := h
  exact ⟨b :: blocks, last, by simpa [hb] using hwf, hlast, by simp [frameBytes]⟩

/-- What the stuffing emits is a canonical Frame, for an open block that is not full and holds no 0x00. -/
theorem canonicalFrame_stuff (d x : List Byte) (hlen : d.length ≤ 253) (hd : Config.delim ∉ d) :
    CanonicalFrame (stuff d x ++ [Config.delim]) := by
  induction x generalizing d with
  | nil => exact canonicalFrame_shortBlock hlen hd
  | cons b x ih =>
    have hrest := ih [] (by simp) (by simp)
    rw [stuff]
    split_ifs with hb hopen
    · rw [List.append_assoc]
      exact hrest.cons (blockWf_blockOf (by omega) hd)
    · exact ih (d ++ [b]) (by simp; omega) (by simp [hd, Ne.symm hb])
    · have hfull : (d ++ [b]).length = 254 := by simp; omega
      rw [← shortBlock_of_length_eq hfull, List.append_assoc]
      exact hrest.cons (blockWf_blockOf hfull.le (by simp [hd, Ne.symm hb]))

/-! ## ENCODE -/

theorem exec_encode_of_idle (hphase : s.phase = .idle) (hfits : payloadFits s = true) :
    exec .encode s = .next (encodeRun s) := by
  simp [exec, execEncode, busy, hphase, hfits]

theorem canonicalFrame_encodeRun (s : State) : CanonicalFrame (bytesOf (encodeRun s) .out) := by
  rw [encodeRun_bytes]
  exact canonicalFrame_stuff [] _ (by simp) (by simp)

/-- Settles O21, by induction on the bytes still to come (`canonicalFrame_stuff`). -/
theorem encodeYieldsACanonicalFrame : Obligations.EncodeYieldsACanonicalFrame :=
  fun s hphase hfits => ⟨encodeRun s, exec_encode_of_idle hphase hfits, canonicalFrame_encodeRun s⟩

theorem CanonicalFrame.wellFormed (h : CanonicalFrame f) : WellFormedFrame f := by
  obtain ⟨blocks, last, hwf, -, rfl⟩ := h
  exact ⟨blocks ++ [last], hwf, rfl⟩

theorem delim_notMem_blockBytes {b : Block} (h : blockWf b = true) : Config.delim ∉ blockBytes b := by
  simp only [blockWf, Bool.and_eq_true, bne_iff_ne, List.all_eq_true] at h
  obtain ⟨⟨hover, -⟩, hdata⟩ := h
  rw [blockBytes, List.mem_cons]
  rintro (h | h)
  · exact hover h.symm
  · exact hdata _ h rfl

/-- A well-formed Frame is its Delimiter after bytes that are all non-zero. -/
theorem WellFormedFrame.eq_append_delim (h : WellFormedFrame f) : ∃ g, f = g ++ [Config.delim] ∧ Config.delim ∉ g := by
  obtain ⟨blocks, hwf, rfl⟩ := h
  refine ⟨blocks.flatMap blockBytes, rfl, fun hmem => ?_⟩
  obtain ⟨b, hb, hin⟩ := List.mem_flatMap.1 hmem
  exact delim_notMem_blockBytes (List.all_eq_true.1 hwf b hb) hin

/-- Settles O20: the output is a well-formed Frame, and only the last byte of one is 0x00. -/
theorem encodeLeavesNoInteriorDelimiter : Obligations.EncodeLeavesNoInteriorDelimiter := by
  intro s hphase hfits
  obtain ⟨g, hg, hnot⟩ := (canonicalFrame_encodeRun s).wellFormed.eq_append_delim
  have hlen : (encodeRun s).out.len = g.length + 1 := by
    simpa using (bytesOf_length (encodeRun s) .out).symm.trans (congrArg List.length hg)
  have hread : ∀ i, i < (encodeRun s).out.len → (g ++ [Config.delim])[i]? = some (memRead (encodeRun s) .out i) :=
    fun i hi => hg ▸ bytesOf_getElem? (encodeRun s) .out hi
  refine ⟨encodeRun s, exec_encode_of_idle hphase hfits, by omega, ?_, fun i hi hzero => ?_⟩
  · have hlast := hread g.length (by omega)
    rw [List.getElem?_concat_length] at hlast
    rw [hlen]
    exact (Option.some.inj hlast).symm
  · have hi' : i < g.length := by omega
    have hmem := hread i (by omega)
    rw [List.getElem?_append_left hi', hzero] at hmem
    exact hnot (List.mem_of_getElem? hmem)

end Sys2Proof.Machine
end

section
/-! PROOFS. What each micro-step of DECODE's scan does and leaves unchanged (rules R151 to R156), and that exactly one of them is
enabled at every point of the scan (rule R157). -/

namespace Sys2Proof.Machine

open Sys2Proof

variable {s t : State}

/-! ## When a guarded micro-step answers (rule R16) -/

theorem guarded_next_iff {c : Prop} [Decidable c] {r : Refusal} :
    (if c then .next s else .refused r : Host.Outcome State Fault Refusal) = .next t ↔ c ∧ t = s := by
  split <;> simp [*, eq_comm]

/-- The Overhead position of rules R27 and R84, register by register. -/
theorem atOverhead_iff :
    atOverhead s = true ↔ s.phase = .decScan ∧ s.term = false ∧ s.fi < s.inp.len ∧ s.cnt = 0x00 := by
  simp [atOverhead, atFrameByte, scanRuns, and_assoc]

theorem exec_decInit_next_iff : exec .decInit s = .next t ↔ s.phase = .decInit ∧ t = decInitEffect s :=
  guarded_next_iff

theorem exec_ovhEnd_next_iff :
    exec .ovhEnd s = .next t ↔ (atOverhead s = true ∧ frameByte s = 0x00#8) ∧ t = ovhEndEffect s := by
  simp [exec, execOvhEnd, guarded_next_iff, Config.delim]

theorem exec_ovhBlk_next_iff {l : Byte} :
    exec (.ovhBlk l) s = .next t ↔
      (atOverhead s = true ∧ frameByte s = l ∧ l ≠ 0x00#8 ∧ l ≠ 0xFF#8) ∧ t = ovhBlkEffect l s := by
  simp [exec, execOvhBlk, guarded_next_iff, Config.delim, Config.ovhFull, and_assoc]

theorem exec_ovhFull_next_iff :
    exec .ovhFull s = .next t ↔ (atOverhead s = true ∧ frameByte s = 0xFF#8) ∧ t = ovhFullEffect s := by
  simp [exec, execOvhFull, guarded_next_iff, Config.ovhFull]

theorem exec_dataCopy_next_iff {b : Byte} :
    exec (.dataCopy b) s = .next t ↔ (atData s = true ∧ frameByte s = b) ∧ t = dataCopyEffect b s := by
  simp [exec, execDataCopy, guarded_next_iff]

theorem exec_decEoi_next_iff :
    exec .decEoi s = .next t ↔ (s.phase = .decScan ∧ s.term = false ∧ s.fi = s.inp.len) ∧ t = decEoiEffect s :=
  guarded_next_iff

theorem exec_decValidate_next_iff : exec .decValidate s = .next t ↔ scanOver s = true ∧ t = decValidateEffect s :=
  guarded_next_iff

/-! ## What the micro-steps do to `RB` -/

/-- An update that writes no buffer but `RB` keeps every byte that it keeps in `RB`. -/
theorem bytesKeptExcept_of_rb {stored : Space → Nat → Prop} (hinp : t.inp = s.inp) (hout : t.out = s.out)
    (hstore : t.store = s.store) (hrb : ∀ i, ¬ stored .rb i → t.rb.read .rb i = s.rb.read .rb i) :
    BytesKeptExcept stored s t := by
  intro sp i hkept
  cases sp with
  | input => simp [memRead, hinp]
  | out => simp [memRead, hout]
  | rb => exact hrb i hkept
  | store => simp [memRead, hstore]

theorem restores_iff : restores s = true ↔ s.first = false ∧ s.prevFull = false := by simp [restores]

/-- The restoration test holds: `RB` gets the one 0x00 (rules R153, R154, R194). -/
theorem openFrameBlock_rb_of_restores (l : Byte) (h : s.first = false ∧ s.prevFull = false) :
    (openFrameBlock l s).rb = s.rb.append Config.delim := by
  rw [openFrameBlock_rb, if_pos (restores_iff.2 h)]

theorem bytesOf_rb_openFrameBlock (l : Byte) (h : s.first = false ∧ s.prevFull = false) :
    bytesOf (openFrameBlock l s) .rb = bytesOf s .rb ++ [0x00#8] ∧ (openFrameBlock l s).rb.len = s.rb.len + 1 := by
  have hrb := openFrameBlock_rb_of_restores l h
  refine ⟨?_, by rw [hrb]; rfl⟩
  unfold bytesOf bufLen
  rw [buf_rb, hrb]
  exact Buffer.firstBytes_append .rb s.rb Config.delim

theorem openFrameBlock_rb_of_not_restores (l : Byte) (h : s.first = true ∨ s.prevFull = true) :
    (openFrameBlock l s).rb = s.rb := by
  rw [openFrameBlock_rb, if_neg]
  rw [restores_iff]
  rintro ⟨hfirst, hfull⟩
  simp [hfirst, hfull] at h

theorem bytesKept_openFrameBlock (l : Byte) (s : State) :
    BytesKeptExcept (fun sp i => sp = .rb ∧ i = s.rb.len ∧ s.first = false ∧ s.prevFull = false) s
      (openFrameBlock l s) := by
  refine bytesKeptExcept_of_rb (by simp) (by simp) (by simp) fun i hi => ?_
  by_cases h : s.first = false ∧ s.prevFull = false
  · rw [openFrameBlock_rb_of_restores l h, Buffer.read_append, if_neg fun hlen => hi ⟨rfl, hlen, h⟩]
  · rw [openFrameBlock_rb_of_not_restores l (by simpa [or_iff_not_imp_left] using h)]

/-- Everything but `RB` that the opening of a frame block does. -/
theorem openFrameBlock_frame (l : Byte) (s : State) :
    openFrameBlock l s =
      { s with
        rb := (openFrameBlock l s).rb, first := false, prevFull := isFull l, cnt := dataCount l, fi := s.fi + 1 } := by
  rw [openFrameBlock_rb]; exact openFrameBlock_eq s l

/-! ## The micro-steps, one by one -/

/-- Settles O23: DEC.INIT writes the six elements of rule R151 and the model's place, and no buffer but `RB`. -/
theorem decInitStartsAfresh : Obligations.DecInitStartsAfresh := fun s hphase =>
  ⟨decInitEffect s, exec_decInit_next_iff.2 ⟨hphase, rfl⟩, rfl, rfl, rfl,
    bytesKeptExcept_of_rb rfl rfl rfl fun _ hi => absurd rfl hi⟩

/-- Settles O24: the hypotheses are the guard of OVH.END. -/
theorem ovhEndStopsTheScan : Obligations.OvhEndStopsTheScan := fun _ hphase hterm hfi hcnt hbyte =>
  exec_ovhEnd_next_iff.2 ⟨⟨atOverhead_iff.2 ⟨hphase, hterm, hfi, hcnt⟩, hbyte⟩, rfl⟩

/-- Settles O25: OVH.BLK opens a frame block that is not full, and `L - 1` does not wrap since L is not 0x00. -/
theorem ovhBlkOpensAShortBlock : Obligations.OvhBlkOpensAShortBlock := by
  intro s l hphase hterm hfi hcnt hbyte hzero hfull
  have hat : atOverhead s = true := atOverhead_iff.2 ⟨hphase, hterm, hfi, hcnt⟩
  refine ⟨openFrameBlock l s, exec_ovhBlk_next_iff.2 ⟨⟨hat, hbyte, hzero, hfull⟩, rfl⟩, ?_, ?_,
    bytesOf_rb_openFrameBlock l, openFrameBlock_rb_of_not_restores l, bytesKept_openFrameBlock l s⟩
  · have hshort : isFull l = false := beq_false_of_ne hfull
    have hframe := openFrameBlock_frame l s
    rwa [hshort, ← openFrameBlock_cnt s l] at hframe
  · rw [openFrameBlock_cnt, dataCount]
    bv_omega

/-- Settles O26: OVH.FULL opens the frame block of Overhead 0xFF, whose data count is 254. -/
theorem ovhFullOpensAFullBlock : Obligations.OvhFullOpensAFullBlock := by
  intro s hphase hterm hfi hcnt hbyte
  have hat : atOverhead s = true := atOverhead_iff.2 ⟨hphase, hterm, hfi, hcnt⟩
  exact ⟨openFrameBlock Config.ovhFull s, exec_ovhFull_next_iff.2 ⟨⟨hat, hbyte⟩, rfl⟩,
    openFrameBlock_frame Config.ovhFull s, bytesOf_rb_openFrameBlock Config.ovhFull,
    openFrameBlock_rb_of_not_restores Config.ovhFull, bytesKept_openFrameBlock Config.ovhFull s⟩

/-- Settles O27: the one write is the append at `RB_LEN`, and `CNT - 1` does not wrap since `CNT` is not 0. -/
theorem dataCopyAppendsTheByte : Obligations.DataCopyAppendsTheByte := by
  intro s b hphase hterm hfi hcnt hbyte
  have hat : atData s = true := atData_iff.2 ⟨hphase, hterm, hfi, hcnt⟩
  refine ⟨dataCopyEffect b s, exec_dataCopy_next_iff.2 ⟨⟨hat, hbyte⟩, rfl⟩, rfl, ?_, bytesOf_rb_dataCopyEffect b s, rfl, ?_⟩
  · rw [dataCopyEffect_cnt]
    bv_omega
  · refine bytesKeptExcept_of_rb rfl rfl rfl fun i hi => ?_
    rw [dataCopyEffect_rb, Buffer.read_append, if_neg fun hlen => hi ⟨rfl, hlen⟩]

/-- Settles O28: the guard of DEC.EOI does not ask for `CNT`, and its effect is the model's place alone. -/
theorem decEoiWritesNothing : Obligations.DecEoiWritesNothing := fun _ hphase hterm hfi =>
  exec_decEoi_next_iff.2 ⟨⟨hphase, hterm, hfi⟩, rfl⟩

/-! ## The one enabled micro-step (rule R157) -/

theorem decode_next_of_atOverhead (h : atOverhead s = true) :
    decode (nextContext s) (nextBytes s) = .ok (decodeOverhead (frameByte s), []) := by
  obtain ⟨hphase, hterm, hfi, hcnt⟩ := atOverhead_iff.1 h
  have hctx : nextContext s = .overhead := by simp [nextContext, hphase, hterm, hfi, hcnt]
  rw [nextBytes, hctx]
  rfl

theorem decode_next_of_atData (h : atData s = true) :
    decode (nextContext s) (nextBytes s) = .ok (.dataCopy (frameByte s), []) := by
  rw [nextBytes_of_atData h, nextContext_of_atData h]
  rfl

theorem decode_next_of_scanned (hphase : s.phase = .decScan) (hterm : s.term = false) (hfi : s.fi = s.inp.len) :
    decode (nextContext s) (nextBytes s) = .ok (.decEoi, []) := by
  have hctx : nextContext s = .point .decEoi := by simp [nextContext, hphase, hterm, hfi]
  rw [nextBytes, hctx]
  rfl

/-- The micro-step that an Overhead byte selects is enabled there, and is one pass of DECODE's loop (rules R84, R150). -/
theorem exec_decodeOverhead_of_atOverhead (h : atOverhead s = true) :
    exec (decodeOverhead (frameByte s)) s = .next (decByte s) := by
  obtain ⟨t, ht⟩ : ∃ t, exec (decodeOverhead (frameByte s)) s = .next t := by
    unfold decodeOverhead
    split
    case isTrue hzero => exact ⟨_, exec_ovhEnd_next_iff.2 ⟨⟨h, hzero⟩, rfl⟩⟩
    case isFalse hzero =>
      split
      case isTrue hfull => exact ⟨_, exec_ovhFull_next_iff.2 ⟨⟨h, hfull⟩, rfl⟩⟩
      case isFalse hfull => exact ⟨_, exec_ovhBlk_next_iff.2 ⟨⟨h, rfl, hzero, hfull⟩, rfl⟩⟩
  obtain ⟨-, -, rfl⟩ := exec_overhead_next ht
  exact ht

theorem decByte_fi (s : State) : (decByte s).fi = s.fi + 1 := by
  rw [decByte_eq]; exact scanByte_fi _ _

theorem decodeOverhead_ne_decEoi (b : Byte) : decodeOverhead b ≠ .decEoi := by
  unfold decodeOverhead
  split
  · nofun
  · split <;> nofun

/-- No instruction but the one the decoder selects is enabled inside the scan: the guards of the scan's micro-steps exclude each
other, and every other instruction asks for another place inside the operation. -/
theorem decode_next_of_exec_next {i : Instr} (hphase : s.phase = .decScan) (hterm : s.term = false)
    (h : exec i s = .next t) : decode (nextContext s) (nextBytes s) = .ok (i, []) := by
  have hidle : s.phase ≠ .idle := by simp [hphase]
  have hsource : atSourceByte s = false := by simp [atSourceByte, hphase]
  cases i with
  | checksum => exact absurd (exec_checksum_next h).1 hidle
  | encode => exact absurd (exec_encode_next h).1 hidle
  | decode => exact absurd (exec_decode_next h).1 hidle
  | getmsg => exact absurd (exec_getmsg_next h).1 hidle
  | encInit => simp [exec, execEncInit, hphase] at h
  | encZero => simp [exec, execEncZero, hsource] at h
  | encData b => simp [exec, execEncData, hsource] at h
  | encDataFull b => simp [exec, execEncDataFull, hsource] at h
  | encFin => simp [exec, execEncFin, hphase] at h
  | decInit => simp [exec_decInit_next_iff, hphase] at h
  | decValidate => simp [exec_decValidate_next_iff, scanOver, hphase, hterm] at h
  | ovhEnd =>
    obtain ⟨⟨hat, hbyte⟩, -⟩ := exec_ovhEnd_next_iff.1 h
    rw [decode_next_of_atOverhead hat, decodeOverhead, if_pos hbyte]
  | ovhFull =>
    obtain ⟨⟨hat, hbyte⟩, -⟩ := exec_ovhFull_next_iff.1 h
    rw [decode_next_of_atOverhead hat, hbyte]
    rfl
  | ovhBlk l =>
    obtain ⟨⟨hat, rfl, hzero, hfull⟩, -⟩ := exec_ovhBlk_next_iff.1 h
    rw [decode_next_of_atOverhead hat, decodeOverhead, if_neg hzero, if_neg hfull]
  | dataCopy b =>
    obtain ⟨⟨hat, rfl⟩, -⟩ := exec_dataCopy_next_iff.1 h
    exact decode_next_of_atData hat
  | decEoi =>
    obtain ⟨⟨-, -, hfi⟩, -⟩ := exec_decEoi_next_iff.1 h
    exact decode_next_of_scanned hphase hterm hfi

/-- Inside the scan the selected micro-step is enabled: the scan stands at an Overhead position, at a data position, or at the
end of the input, and by the invariant nowhere else. -/
theorem exists_enabled_of_decInv (hphase : s.phase = .decScan) (hinv : DecInv s) (hterm : s.term = false) :
    ∃ i t, decode (nextContext s) (nextBytes s) = .ok (i, []) ∧ exec i s = .next t ∧
      (i = .decEoi ∧ t.fi = s.fi ∨ i ≠ .decEoi ∧ t.fi = s.fi + 1) := by
  rcases hinv.scan.eq_or_lt with hend | hlt
  · exact ⟨.decEoi, decEoiEffect s, decode_next_of_scanned hphase hterm hend,
      exec_decEoi_next_iff.2 ⟨⟨hphase, hterm, hend⟩, rfl⟩, .inl ⟨rfl, rfl⟩⟩
  · by_cases hcnt : s.cnt = 0x00
    · have hat : atOverhead s = true := atOverhead_iff.2 ⟨hphase, hterm, hlt, hcnt⟩
      exact ⟨decodeOverhead (frameByte s), decByte s, decode_next_of_atOverhead hat,
        exec_decodeOverhead_of_atOverhead hat, .inr ⟨decodeOverhead_ne_decEoi _, decByte_fi s⟩⟩
    · have hat : atData s = true := atData_iff.2 ⟨hphase, hterm, hlt, hcnt⟩
      exact ⟨.dataCopy (frameByte s), dataCopyEffect (frameByte s) s, decode_next_of_atData hat,
        exec_dataCopy_of_atData hat, .inr ⟨nofun, rfl⟩⟩

/-- Settles O32: the micro-step the decoder selects is enabled, and whatever is enabled is what the decoder selects. -/
theorem exactlyOneScanStepIsEnabled : Obligations.ExactlyOneScanStepIsEnabled := by
  intro s hphase hinv hterm
  obtain ⟨i, t, hdecode, hexec, hfi⟩ := exists_enabled_of_decInv hphase hinv hterm
  refine ⟨i, t, hdecode, hexec, fun j u hj => ?_, hfi⟩
  have hsame : Except.ok (j, []) = Except.ok (i, []) := (decode_next_of_exec_next hphase hterm hj).symm.trans hdecode
  simpa using hsame

end Sys2Proof.Machine
end

section
/-! PROOFS. What GETMSG does and leaves unchanged, and what a second one returns (rule R200). -/

namespace Sys2Proof.Machine

open Sys2Proof

variable {s t : State}

/-- An idle instance answers GETMSG whatever it holds: the only refusal is that of rule R62. -/
theorem exec_getmsg_of_idle (hphase : s.phase = .idle) : exec .getmsg s = .next (copyStoreOut s) := by
  simp [exec, execGetmsg, busy, hphase]

/-- The copy is read back from `OUT` byte for byte, an unwritten byte of the Store too (log entry 7). -/
theorem bytesOf_out_copyStoreOut (s : State) : bytesOf (copyStoreOut s) .out = bytesOf s .store :=
  Buffer.firstBytes_ofBytes .out (bytesOf s .store)

theorem out_len_copyStoreOut (s : State) : (copyStoreOut s).out.len = s.store.len :=
  bytesOf_length s .store

/-- The copy reads nothing but the Store, which it keeps; so copying again changes nothing. -/
theorem copyStoreOut_idem (s : State) : copyStoreOut (copyStoreOut s) = copyStoreOut s := rfl

/-- An update that writes no buffer but `OUT`, anywhere in it. -/
theorem bytesKeptExcept_all_out (hinp : t.inp = s.inp) (hrb : t.rb = s.rb) (hstore : t.store = s.store) :
    BytesKeptExcept (fun sp _ => sp = .out) s t := fun sp i hkept =>
  bytesKeptExcept_out (stored := fun _ => True) hinp hrb hstore (fun _ h => absurd trivial h) sp i fun h => hkept h.1

/-- Settles O37: GETMSG is the copy, which keeps the place idle; so a second GETMSG is the same copy again. -/
theorem getmsgCopiesTheStore : Obligations.GetmsgCopiesTheStore := by
  intro s hphase
  have hagain : exec .getmsg (copyStoreOut s) = .next (copyStoreOut s) := by
    rw [exec_getmsg_of_idle (s := copyStoreOut s) hphase, copyStoreOut_idem]
  exact ⟨copyStoreOut s, exec_getmsg_of_idle hphase, bytesOf_out_copyStoreOut s, out_len_copyStoreOut s, rfl,
    bytesKeptExcept_all_out rfl rfl rfl, copyStoreOut s, hagain, rfl, rfl⟩

end Sys2Proof.Machine
end

section
/-! PROOFS. When the four host operations are refused (rule R214). -/

namespace Sys2Proof.Machine

open Sys2Proof

variable {s : State}

theorem isHostOp_iff {i : Instr} : isHostOp i = true ↔ i = .checksum ∨ i = .encode ∨ i = .decode ∨ i = .getmsg := by
  cases i <;> simp [isHostOp, Instr.format]

theorem busy_eq_true_iff : busy s = true ↔ s.phase ≠ .idle := by simp [busy]

theorem busy_of_idle (hphase : s.phase = .idle) : busy s = false := by simp [busy, hphase]

/-- Every host operation tests first whether another is in progress (rule R62). -/
theorem exec_hostOp_of_busy {i : Instr} (hop : isHostOp i = true) (hphase : s.phase ≠ .idle) :
    exec i s = .refused .operationInProgress := by
  have hbusy : busy s = true := busy_eq_true_iff.2 hphase
  rcases isHostOp_iff.1 hop with rfl | rfl | rfl | rfl <;> exact if_pos hbusy

theorem exec_checksum_of_overlong (hphase : s.phase = .idle) (hfits : payloadFits s = false) :
    exec .checksum s = .refused .capacityExceeded := by
  simp [exec, execChecksum, busy_of_idle hphase, hfits]

theorem exec_encode_of_overlong (hphase : s.phase = .idle) (hfits : payloadFits s = false) :
    exec .encode s = .refused .capacityExceeded := by
  simp [exec, execEncode, busy_of_idle hphase, hfits]

theorem exec_decode_of_overlong (hphase : s.phase = .idle) (hfits : frameFits s = false) :
    exec .decode s = .refused .capacityExceeded := by
  simp [exec, execDecode, busy_of_idle hphase, hfits]

/-- Settles O11: an operation tests the place first and its capacity second. -/
theorem operationsOutsideTheirDomainAreRefused : Obligations.OperationsOutsideTheirDomainAreRefused :=
  ⟨fun _ _ hop hphase => exec_hostOp_of_busy hop hphase,
    fun _ hphase hfits => ⟨exec_checksum_of_overlong hphase hfits, exec_encode_of_overlong hphase hfits⟩,
    fun _ hphase hfits => exec_decode_of_overlong hphase hfits⟩

end Sys2Proof.Machine
end

section
/-! PROOFS. The content of `RB` after the scan of DECODE (rule R173), and what a DECODE that fails on it leaves unchanged (rule
R217). -/

namespace Sys2Proof.Machine

open Sys2Proof

variable {s : State}

/-! ## What the scan puts into `RB` (rule R173) -/

/-- `RB` as a byte sequence. -/
def ScanRegs.bytes (r : ScanRegs) : List Byte := r.rb.firstBytes .rb r.rb.len

/-- The restoration test on the scan's registers (rule R153). -/
def ScanRegs.restores (r : ScanRegs) : Bool := !r.first && !r.prevFull

/-- The blocks that follow an opened one, with the Delimiter byte before them when that one was short (rules R153, R158). -/
def joinAfter (short : Bool) : List Block → List Byte
  | [] => []
  | b :: bs => (if short then [Config.delim] else []) ++ joinBlocks (b :: bs)

theorem joinBlocks_cons (b : Block) (bs : List Block) :
    joinBlocks (b :: bs) = b.data ++ joinAfter (!isFull b.overhead) bs := by
  cases bs with
  | nil => simp [joinBlocks, joinAfter]
  | cons c bs => simp [joinBlocks, joinAfter, isFull]

theorem joinAfter_false (bs : List Block) : joinAfter false bs = joinBlocks bs := by
  cases bs <;> rfl

theorem joinAfter_cons (short : Bool) (b : Block) (bs : List Block) :
    joinAfter short (b :: bs) =
      (if short then [Config.delim] else []) ++ (b.data ++ joinAfter (!isFull b.overhead) bs) := by
  rw [joinAfter, joinBlocks_cons]

theorem scanByte_data {b : Byte} {r : ScanRegs} (hcnt : r.cnt ≠ 0x00) :
    scanByte b r = { r with rb := r.rb.append b, cnt := r.cnt - 1, fi := r.fi + 1 } := if_neg hcnt

/-- The data of an open block, as many bytes as `CNT` says or as there are, are copied to `RB` in one go (rules R155, R156). -/
theorem scanBytes_data (f : List Byte) (r : ScanRegs) (hterm : r.term = false) :
    ∃ r', scanBytes f r = scanBytes (f.drop r.cnt.toNat) r' ∧ r'.bytes = r.bytes ++ f.take r.cnt.toNat ∧
      r'.first = r.first ∧ r'.prevFull = r.prevFull ∧ r'.term = false ∧
      (f.drop r.cnt.toNat ≠ [] → r'.cnt = 0x00) := by
  induction f generalizing r with
  | nil => exact ⟨r, by simp, by simp, rfl, rfl, hterm, by simp⟩
  | cons b f ih =>
    by_cases hcnt : r.cnt = 0x00
    · exact ⟨r, by simp [hcnt], by simp [hcnt], rfl, rfl, hterm, fun _ => hcnt⟩
    · have hstep : scanBytes (b :: f) r = scanBytes f (scanByte b r) := by simp [scanBytes, hterm]
      have hcount : r.cnt.toNat = (scanByte b r).cnt.toNat + 1 := by
        rw [scanByte_data hcnt]
        bv_omega
      have hbytes : (scanByte b r).bytes = r.bytes ++ [b] := by
        rw [scanByte_data hcnt]
        exact Buffer.firstBytes_append .rb r.rb b
      rw [hstep, hcount, List.drop_succ_cons, List.take_succ_cons]
      obtain ⟨r', hscan, hr', hfirst, hfull, hterm', hcnt'⟩ := ih (scanByte b r) (by rw [scanByte_data hcnt]; exact hterm)
      rw [scanByte_data hcnt] at hfirst hfull
      exact ⟨r', hscan, by rw [hr', hbytes]; simp, hfirst, hfull, hterm', hcnt'⟩

theorem scanByte_delim {r : ScanRegs} (hcnt : r.cnt = 0x00) :
    scanByte Config.delim r = { r with fi := r.fi + 1, term := true } := by
  simp [scanByte, hcnt]

theorem scanByte_overhead {l : Byte} {r : ScanRegs} (hcnt : r.cnt = 0x00) (hl : l ≠ Config.delim) :
    scanByte l r =
      { r with
        rb := if r.restores then r.rb.append Config.delim else r.rb,
        first := false, prevFull := isFull l, cnt := dataCount l, fi := r.fi + 1 } := by
  rw [scanByte, if_pos hcnt, if_neg hl]
  rfl

theorem bytes_scanByte_overhead {l : Byte} {r : ScanRegs} (hcnt : r.cnt = 0x00) (hl : l ≠ Config.delim) :
    (scanByte l r).bytes = r.bytes ++ if r.restores then [Config.delim] else [] := by
  rw [scanByte_overhead hcnt hl]
  cases hrestores : r.restores
  · simp [ScanRegs.bytes]
  · simpa [ScanRegs.bytes] using Buffer.firstBytes_append .rb r.rb Config.delim

theorem dataCount_toNat {l : Byte} (hl : l ≠ Config.delim) : (dataCount l).toNat = l.toNat - 1 := by
  unfold dataCount Config.delim at *
  bv_omega

/-- From an Overhead position on, or at the end of the input, the scan appends to `RB` the blocks still to come, by induction on
their number. -/
theorem bytes_scanBytes (n : Nat) (f : List Byte) (r : ScanRegs) (hn : f.length ≤ n) (hterm : r.term = false)
    (hcnt : f ≠ [] → r.cnt = 0x00) :
    (scanBytes f r).bytes = r.bytes ++ joinAfter r.restores (parseBlocks n f) := by
  induction n generalizing f r with
  | zero =>
    obtain rfl : f = [] := List.length_eq_zero_iff.1 (Nat.le_zero.1 hn)
    simp [scanBytes, parseBlocks, joinAfter]
  | succ n ih =>
    cases f with
    | nil => simp [scanBytes, parseBlocks, joinAfter]
    | cons l rest =>
      have hcnt0 : r.cnt = 0x00 := hcnt (by simp)
      have hstep : scanBytes (l :: rest) r = scanBytes rest (scanByte l r) := by simp [scanBytes, hterm]
      rw [hstep, parseBlocks]
      by_cases hl : l = Config.delim
      · subst hl
        rw [scanByte_delim hcnt0, scanBytes_term rfl, if_pos rfl]
        simp [ScanRegs.bytes, joinAfter]
      · have hopen := scanByte_overhead hcnt0 hl
        obtain ⟨r', hscan, hbytes, hfirst, hfull, hterm', hcnt'⟩ :=
          scanBytes_data rest (scanByte l r) (by rw [hopen]; exact hterm)
        have hcount : (scanByte l r).cnt.toNat = l.toNat - 1 := by rw [hopen]; exact dataCount_toNat hl
        have hrestores : r'.restores = !isFull l := by simp [ScanRegs.restores, hfirst, hfull, hopen]
        rw [hcount] at hscan hbytes hcnt'
        have hrest : (rest.drop (l.toNat - 1)).length ≤ n := by
          rw [List.length_cons] at hn
          rw [List.length_drop]
          omega
        rw [if_neg hl, hscan, ih _ r' hrest hterm' hcnt', hbytes, bytes_scanByte_overhead hcnt0 hl, hrestores,
          joinAfter_cons]
        simp

/-- The scan of a whole frame leaves its reconstruction in `RB` (rule R173): no block has been opened before the first. -/
theorem bytes_scanBytes_initialRegs (f : List Byte) : (scanBytes f initialRegs).bytes = reconstruct f := by
  rw [bytes_scanBytes f.length f initialRegs le_rfl rfl fun _ => rfl]
  exact joinAfter_false _

/-! ## DECODE up to its validation -/

/-- The state in which DECODE validates (rules R150, R168). -/
def decodeScanned (s : State) : State := endScan (decLoop s.inp.len (decInitEffect (beginDecode s)))

theorem decodeRun_eq_validate (s : State) : decodeRun s = decValidateEffect (decodeScanned s) := rfl

/-- The scan writes its own registers and the model's place, and nothing else. -/
theorem decodeScanned_eq (s : State) :
    decodeScanned s =
      { withScanRegs (scanBytes (bytesOf s .input) initialRegs) s with phase := (decodeScanned s).phase } := by
  unfold decodeScanned endScan
  rw [decodeScan_eq]
  split <;> rfl

theorem bytesOf_rb_decodeScanned (s : State) : bytesOf (decodeScanned s) .rb = reconstruct (bytesOf s .input) := by
  rw [decodeScanned_eq]
  exact bytes_scanBytes_initialRegs (bytesOf s .input)

/-! ## The verdict (rules R168, R174) -/

theorem xorFold_concat (m : List Byte) (b : Byte) : xorFold (m ++ [b]) = xorFold m ^^^ b := by
  simp [xorFold]

/-- The checksum test on the message and the received checksum is the fold of the whole of `RB`. -/
theorem failCause_eq_none_iff :
    failCause s = none ↔ bytesOf s .rb ≠ [] ∧ xorFold (bytesOf s .rb) = 0x00#8 := by
  unfold failCause receivedMessage receivedChecksum memRead bytesOf bufLen
  rw [buf_rb]
  cases s.rb.len with
  | zero => simp [Buffer.firstBytes]
  | succ n => simp [Buffer.firstBytes_succ, xorFold_concat]

/-- The two failing arms of DEC.VALIDATE write `OK`, the place and the checksum engine's registers, and nothing else (rules R169,
R171). -/
theorem decValidateEffect_of_failed (h : failCause s ≠ none) :
    decValidateEffect s =
      { s with
        ok := false, phase := .idle, acc := (decValidateEffect s).acc, si := (decValidateEffect s).si } := by
  rw [decValidateEffect_eq]
  split_ifs with hempty hsum
  · rfl
  · exact absurd (by simp [failCause, hempty, hsum]) h
  · rfl

/-- Settles O36: `RB` holds the reconstruction, so the hypothesis is that DEC.VALIDATE has a cause to fail; neither the scan nor a
failing arm writes the elements named. -/
theorem failedDecodeChangesNothingPersistent : Obligations.FailedDecodeChangesNothingPersistent := by
  intro s t _ hexec hrejected
  obtain ⟨-, -, rfl⟩ := exec_decode_next hexec
  have hfail : failCause (decodeScanned s) ≠ none := by
    rw [Ne, failCause_eq_none_iff, bytesOf_rb_decodeScanned]
    rintro ⟨hne, hzero⟩
    exact hrejected.elim hne fun hsum => hsum hzero
  rw [decodeRun_eq_validate, decValidateEffect_of_failed hfail, decodeScanned_eq]
  exact ⟨rfl, rfl, rfl, rfl, rfl, rfl, rfl, rfl⟩

end Sys2Proof.Machine
end

section
/-! PROOFS. The decoder and the encoder of instructions are inverse to each other in every context (rules R84 to R88, R93, R96). -/

namespace Sys2Proof

open Sys2Proof.Machine

/-! ## What each byte decodes to -/

/-- The byte that carries `OP` is the encoding of the operation it names (log entry 16). -/
theorem encode_decodeOp (op : OpCode) : encode (decodeOp op) = [opByte op] := by
  revert op; decide

theorem wellFormed_decodeOp (op : OpCode) : (decodeOp op).wellFormed = true := by
  revert op; decide

theorem format_decodeOp (op : OpCode) : (decodeOp op).format = .hostop := by
  revert op; decide

/-- A byte below 4 carries its two low bits. -/
theorem opByte_setWidth {b : Byte} (h : b.toNat < 4) : opByte (b.setWidth 2) = b := by
  unfold opByte
  bv_omega

theorem decodeOverhead_short {b : Byte} (hzero : b ≠ 0x00#8) (hfull : b ≠ 0xFF#8) : decodeOverhead b = .ovhBlk b := by
  rw [decodeOverhead, if_neg hzero, if_neg hfull]

theorem decode_overhead_short {b : Byte} (hzero : b ≠ 0x00#8) (hfull : b ≠ 0xFF#8) (rest : List Byte) :
    decode .overhead (b :: rest) = .ok (.ovhBlk b, rest) := by
  simp only [decode, decodeOverhead_short hzero hfull]

theorem decodeSource_zero (code : Byte) : decodeSource code 0x00#8 = .ok .encZero := rfl

theorem decodeSource_open {code b : Byte} (hb : b ≠ 0x00#8) (hcode : code.toNat ≤ 253) :
    decodeSource code b = .ok (.encData b) := by
  rw [decodeSource, if_neg hb, if_pos hcode]

theorem decodeSource_full {code b : Byte} (hb : b ≠ 0x00#8) (hcode : code.toNat = 254) :
    decodeSource code b = .ok (.encDataFull b) := by
  rw [decodeSource, if_neg hb, if_neg (by omega), if_pos hcode]

theorem decode_source_of_ok {code b : Byte} {i : Instr} (h : decodeSource code b = .ok i) (rest : List Byte) :
    decode (.source code) (b :: rest) = .ok (i, rest) := by
  simp only [decode, h]

/-! ## Decode of encode -/

/-- Settles O1: each word is read off the opcode table. -/
theorem tableWordsDecodeToTheirRows : Obligations.TableWordsDecodeToTheirRows :=
  ⟨rfl, rfl, rfl, rfl, rfl, rfl, rfl, rfl, rfl, rfl, rfl, rfl, rfl, rfl, rfl, rfl⟩

/-- Settles O5, context by context: the context leaves the rows it matches, and the operand conditions of a well-formed
instruction are those that choose its row. -/
theorem decodeOfEncodeIsTheInstruction : Obligations.DecodeOfEncodeIsTheInstruction := by
  intro ctx i rest hwf hadmits
  cases ctx with
  | hostop =>
    rcases isHostOp_iff.1 hadmits with rfl | rfl | rfl | rfl <;> rfl
  | overhead =>
    cases i with
    | ovhEnd => rfl
    | ovhFull => rfl
    | ovhBlk l =>
      obtain ⟨hzero, hfull⟩ : l ≠ 0x00#8 ∧ l ≠ 0xFF#8 := by
        simpa [Instr.wellFormed, Config.delim, Config.ovhFull] using hwf
      exact decode_overhead_short hzero hfull rest
    | _ => cases hadmits
  | data =>
    cases i with
    | dataCopy b => rfl
    | _ => cases hadmits
  | source code =>
    cases i with
    | encZero => exact decode_source_of_ok (decodeSource_zero code) rest
    | encData b => exact decode_source_of_ok (decodeSource_open (bne_iff_ne.1 hwf) (of_decide_eq_true hadmits)) rest
    | encDataFull b => exact decode_source_of_ok (decodeSource_full (bne_iff_ne.1 hwf) (of_decide_eq_true hadmits)) rest
    | _ => cases hadmits
  | point p =>
    obtain rfl : i = decodePoint p := of_decide_eq_true hadmits
    cases p <;> rfl

/-! ## Encode of decode -/

/-- What a byte at an Overhead position selects has it as its encoding. -/
theorem decodeOverhead_encoded (b : Byte) :
    (decodeOverhead b).wellFormed = true ∧ (decodeOverhead b).format = .overhead ∧ encode (decodeOverhead b) = [b] := by
  by_cases hzero : b = 0x00#8
  · subst hzero; exact ⟨rfl, rfl, rfl⟩
  · by_cases hfull : b = 0xFF#8
    · subst hfull; exact ⟨rfl, rfl, rfl⟩
    · rw [decodeOverhead_short hzero hfull]
      exact ⟨by simp [Instr.wellFormed, Config.delim, Config.ovhFull, hzero, hfull], rfl, rfl⟩

/-- What a source byte selects has it as its encoding. -/
theorem decodeSource_encoded {code b : Byte} {i : Instr} (h : decodeSource code b = .ok i) :
    i.wellFormed = true ∧ i.sourceRow code = true ∧ encode i = [b] := by
  unfold decodeSource at h
  split_ifs at h with hzero hopen hfull
  · cases h; exact ⟨rfl, rfl, by rw [hzero]; rfl⟩
  · cases h; exact ⟨bne_iff_ne.2 hzero, decide_eq_true hopen, rfl⟩
  · cases h; exact ⟨bne_iff_ne.2 hzero, decide_eq_true hfull, rfl⟩

/-- Settles O6, context by context. -/
theorem decodedBytesAreTheEncoding : Obligations.DecodedBytesAreTheEncoding := by
  intro ctx bytes rest i h
  cases ctx with
  | point p => cases h; cases p <;> exact ⟨rfl, rfl, rfl⟩
  | hostop =>
    cases bytes with
    | nil => cases h
    | cons b bs =>
      simp only [decode] at h
      split at h
      case isTrue hop =>
        cases h
        refine ⟨wellFormed_decodeOp _, decide_eq_true (format_decodeOp _), ?_⟩
        rw [encode_decodeOp, opByte_setWidth hop]; rfl
      case isFalse => cases h
  | overhead =>
    cases bytes with
    | nil => cases h
    | cons b bs =>
      cases h
      obtain ⟨hwf, hformat, hbytes⟩ := decodeOverhead_encoded b
      exact ⟨hwf, decide_eq_true hformat, by rw [hbytes]; rfl⟩
  | data =>
    cases bytes with
    | nil => cases h
    | cons b bs => cases h; exact ⟨rfl, rfl, rfl⟩
  | source code =>
    cases bytes with
    | nil => cases h
    | cons b bs =>
      simp only [decode] at h
      cases hd : decodeSource code b with
      | error e => simp [hd] at h
      | ok j =>
        obtain ⟨rfl, rfl⟩ : j = i ∧ bs = rest := by simpa [hd] using h
        obtain ⟨hwf, hrow, hbytes⟩ := decodeSource_encoded hd
        exact ⟨hwf, hrow, by rw [hbytes]; rfl⟩

end Sys2Proof

namespace Sys2Proof.Machine

open Sys2Proof

variable {s : State}

/-! ## What the scans read (rules R84, R86) -/

theorem nextContext_of_atOverhead (h : atOverhead s = true) : nextContext s = .overhead := by
  obtain ⟨hphase, hterm, hfi, hcnt⟩ := atOverhead_iff.1 h
  simp [nextContext, hphase, hterm, hfi, hcnt]

/-- Settles O2: the Overhead position is where the OVERHEAD rows are matched, and the decoder there tests the byte alone. -/
theorem overheadByteSelectsByItsValue : Obligations.OverheadByteSelectsByItsValue := by
  refine ⟨fun s h => ⟨nextContext_of_atOverhead h, by rw [nextBytes, nextContext_of_atOverhead h]⟩, fun b rest => ⟨?_, ?_, ?_⟩⟩
  · rintro rfl; rfl
  · rintro rfl; rfl
  · exact fun hzero hfull => decode_overhead_short hzero hfull rest

theorem atSourceByte_iff : atSourceByte s = true ↔ s.phase = .encScan ∧ s.si < xLen s := by
  simp [atSourceByte]

theorem nextContext_of_atSourceByte (h : atSourceByte s = true) : nextContext s = .source s.code := by
  obtain ⟨hphase, hsi⟩ := atSourceByte_iff.1 h
  simp [nextContext, hphase, hsi]

theorem nextBytes_of_atSourceByte (h : atSourceByte s = true) : nextBytes s = [xByte s] := by
  rw [nextBytes, nextContext_of_atSourceByte h]

/-- Settles O4: a source byte is matched by the SRCBYTE rows, and `CODE` chooses between the two rows of ENC.DATA. -/
theorem sourceByteSelectsByItsValue : Obligations.SourceByteSelectsByItsValue := by
  refine ⟨fun s h => ⟨nextContext_of_atSourceByte h, nextBytes_of_atSourceByte h⟩, fun code b rest => ⟨?_, ?_, ?_⟩⟩
  · rintro rfl; exact decode_source_of_ok (decodeSource_zero code) rest
  · exact fun hb hcode => decode_source_of_ok (decodeSource_open hb hcode) rest
  · exact fun hb hcode => decode_source_of_ok (decodeSource_full hb hcode) rest

end Sys2Proof.Machine
end

section
/-! PROOFS. The laws of the exclusive-or fold (rule R113), and what CHECKSUM does with it (rule R112). -/

namespace Sys2Proof.Machine

open Sys2Proof

variable {s : State}

/-! ## The fold along the constructors of a sequence -/

theorem xorFold_nil : xorFold [] = 0x00#8 := rfl

theorem csumInit_xor (b : Byte) : Config.csumInit ^^^ b = b := BitVec.zero_xor

/-- The start value of the fold comes out of it. -/
theorem foldl_xor (a : Byte) (p : List Byte) : p.foldl (fun acc b => acc ^^^ b) a = a ^^^ xorFold p := by
  induction p generalizing a with
  | nil => exact (BitVec.xor_zero (x := a)).symm
  | cons b p ih =>
    rw [xorFold, List.foldl_cons, List.foldl_cons, ih, ih, csumInit_xor, BitVec.xor_assoc]

theorem xorFold_cons (b : Byte) (p : List Byte) : xorFold (b :: p) = b ^^^ xorFold p := by
  rw [xorFold, List.foldl_cons, foldl_xor, csumInit_xor]

theorem xorFold_singleton (b : Byte) : xorFold [b] = b := by
  rw [xorFold_cons, xorFold_nil, BitVec.xor_zero]

theorem xorFold_append (p q : List Byte) : xorFold (p ++ q) = xorFold p ^^^ xorFold q := by
  induction p with
  | nil => exact (BitVec.zero_xor (x := xorFold q)).symm
  | cons b p ih => rw [List.cons_append, xorFold_cons, xorFold_cons, ih, BitVec.xor_assoc]

theorem xorFold_perm {p q : List Byte} (h : p.Perm q) : xorFold p = xorFold q := by
  induction h with
  | nil => rfl
  | cons b _ ih => rw [xorFold_cons, xorFold_cons, ih]
  | swap b c p =>
    simp only [xorFold_cons]
    rw [← BitVec.xor_assoc, BitVec.xor_comm c, BitVec.xor_assoc]
  | trans _ _ ih ih' => exact ih.trans ih'

/-- Each bit of the fold is the parity of that bit over the sequence. -/
theorem getLsbD_xorFold (p : List Byte) (i : Nat) :
    (xorFold p).getLsbD i = true ↔ (p.countP fun b => b.getLsbD i) % 2 = 1 := by
  induction p with
  | nil => simp [xorFold_nil]
  | cons b p ih =>
    rw [xorFold_cons, BitVec.getLsbD_xor, List.countP_cons]
    cases hb : b.getLsbD i
    · simpa using ih
    · cases hp : (xorFold p).getLsbD i
      · have : ¬ (p.countP fun b => b.getLsbD i) % 2 = 1 := by simpa [hp] using ih
        simp; omega
      · have := ih.1 hp
        simp; omega

/-! ## The fold and one more byte -/

theorem xorFold_append_self (p : List Byte) : xorFold (p ++ [xorFold p]) = 0x00#8 := by
  rw [xorFold_concat, BitVec.xor_self]

theorem xorFold_eq_iff (p : List Byte) (r : Byte) : xorFold p = r ↔ xorFold (p ++ [r]) = 0x00#8 := by
  rw [xorFold_concat, BitVec.xor_eq_zero_iff]

theorem xorFold_insert_zero (p q : List Byte) : xorFold (p ++ 0x00#8 :: q) = xorFold (p ++ q) := by
  rw [xorFold_append, xorFold_cons, BitVec.zero_xor, xorFold_append]

/-- Two equal bytes cancel, wherever they stand: the fold is independent of order. -/
theorem xorFold_insert_pair (p q r : List Byte) (b : Byte) :
    xorFold (p ++ b :: (q ++ b :: r)) = xorFold (p ++ q ++ r) := by
  have hperm : (p ++ b :: (q ++ b :: r)).Perm (b :: b :: (p ++ q ++ r)) := by
    rw [List.append_assoc]
    exact List.perm_middle.trans (.cons b ((List.perm_middle.append_left p).trans List.perm_middle))
  rw [xorFold_perm hperm, xorFold_cons, xorFold_cons, ← BitVec.xor_assoc, BitVec.xor_self, BitVec.zero_xor]

/-- Settles O13: the laws of one exclusive-or, and the fold's laws by induction on the sequence. -/
theorem xorFoldLaws : Obligations.XorFoldLaws := by
  refine ⟨fun a b c => ⟨BitVec.xor_comm a b, BitVec.xor_assoc a b c, BitVec.xor_zero, BitVec.xor_self⟩, ?_, xorFold_append,
    xorFold_nil, xorFold_singleton, fun p q => xorFold_perm, fun p i _ => getLsbD_xorFold p i, xorFold_append_self,
    xorFold_eq_iff, xorFold_insert_zero, xorFold_insert_pair⟩
  intro a b i _
  rw [BitVec.getLsbD_xor]
  cases a.getLsbD i <;> cases b.getLsbD i <;> decide

/-! ## CHECKSUM -/

theorem exec_checksum_of_idle (hphase : s.phase = .idle) (hfits : payloadFits s = true) :
    exec .checksum s = .next (takeResult (foldBytes (bytesOf s .input) s)) := by
  simp [exec, execChecksum, busy_of_idle hphase, hfits]

/-- Everything CHECKSUM does. -/
theorem takeResult_foldBytes_eq (s : State) :
    takeResult (foldBytes (bytesOf s .input) s) =
      { s with res := xorFold (bytesOf s .input), acc := xorFold (bytesOf s .input), si := s.inp.len } := by
  rw [foldBytes_eq, bytesOf_length]; rfl

/-- Settles O12: CHECKSUM is the fold taken into `RES`; the corner cases are laws of the fold. -/
theorem checksumFoldsTheInput : Obligations.ChecksumFoldsTheInput := by
  refine ⟨fun s hphase hfits => ?_, rfl, rfl, xorFold_singleton, fun b => ?_, by decide, xorFold_insert_zero⟩
  · rw [exec_checksum_of_idle hphase hfits, takeResult_foldBytes_eq]
  · rw [xorFold_cons, xorFold_singleton, BitVec.xor_self]

end Sys2Proof.Machine
end

section
/-! PROOFS. What ENC.INIT, ENC.ZERO and the full close of ENC.DATA do (rules R121, R122, R124). -/

namespace Sys2Proof.Machine

open Sys2Proof

variable {s : State}

/-- A reserved position holds no written byte (log entry 8). -/
theorem Buffer.read?_reserve_self (b : Buffer) (i : Nat) : Memory.read? (b.reserve i).cells i = none :=
  (Memory.read?_forget b.cells i i).trans (if_pos rfl)

theorem exec_encInit_of_phase (hphase : s.phase = .encInit) : exec .encInit s = .next (encInitEffect s) := by
  simp [exec, execEncInit, hphase]

/-- Settles O14: ENC.INIT writes no byte; it reserves the position 0. -/
theorem encInitOpensTheFirstBlock : Obligations.EncInitOpensTheFirstBlock := fun s hphase =>
  ⟨encInitEffect s, exec_encInit_of_phase hphase, rfl, rfl, Buffer.read?_reserve_self s.out 0,
    bytesKeptExcept_out rfl rfl rfl fun _ hi => Buffer.read_reserve .out s.out hi⟩

/-- The guard of ENC.ZERO (rule R122). -/
theorem exec_encZero_of_enabled (hphase : s.phase = .encScan) (hsi : s.si < xLen s) (hb : xByte s = Config.delim) :
    exec .encZero s = .next (encZeroEffect s) := by
  simp [exec, execEncZero, atSourceByte, hphase, hsi, hb]

/-- Every byte of `OUT` after ENC.ZERO, but for the position that it reserves. -/
theorem read_out_encZeroEffect {i : Nat} (h : i ≠ s.wr) :
    (encZeroEffect s).out.read .out i = if i = s.slot then s.code else s.out.read .out i := by
  rw [encZeroEffect_eq, Buffer.read_reserve _ _ h, Buffer.read_write]

/-- Settles O15: the one write is the backpatch at `SLOT`, and the position at `WR` is reserved. -/
theorem encZeroClosesTheBlock : Obligations.EncZeroClosesTheBlock := by
  intro s hphase hsi hb
  refine ⟨encZeroEffect s, exec_encZero_of_enabled hphase hsi hb, encZeroEffect_eq s, rfl, ?_,
    Buffer.read?_reserve_self _ s.wr, ?_⟩
  · exact fun hslot => (read_out_encZeroEffect hslot.ne).trans (if_pos rfl)
  · refine bytesKeptExcept_out rfl rfl rfl fun i hi => ?_
    obtain ⟨hslot, hwr⟩ := not_or.1 hi
    rw [read_out_encZeroEffect hwr, if_neg hslot]

/-- The guard of ENC.DATA with full close (rule R124). -/
theorem exec_encDataFull_of_enabled {b : Byte} (hphase : s.phase = .encScan) (hsi : s.si < xLen s) (hb : xByte s = b)
    (hne : b ≠ Config.delim) (hcode : s.code.toNat = 254) : exec (.encDataFull b) s = .next (encDataFullEffect b s) := by
  simp [exec, execEncDataFull, atSourceByte, hphase, hsi, hb, hne, hcode]

/-- Every byte of `OUT` after the full close, but for the position that it reserves. -/
theorem read_out_encDataFullEffect {b : Byte} {i : Nat} (h : i ≠ s.wr + 1) :
    (encDataFullEffect b s).out.read .out i =
      if i = s.slot then s.code + 1 else if i = s.wr then b else s.out.read .out i := by
  rw [encDataFullEffect_eq, Buffer.read_reserve _ _ h, Buffer.read_write, Buffer.read_write]

/-- Settles O17: `CODE` is 255 once the byte has been appended at `WR`, and that is what the backpatch writes at `SLOT`. -/
theorem encDataFullClosesTheFullBlock : Obligations.EncDataFullClosesTheFullBlock := by
  intro s b hphase hsi hb hne hcode
  have hfull : s.code + 1 = 0xFF#8 := by bv_omega
  refine ⟨encDataFullEffect b s, exec_encDataFull_of_enabled hphase hsi hb hne hcode, encDataFullEffect_eq s b, rfl, ?_,
    Buffer.read?_reserve_self _ (s.wr + 1), ?_⟩
  · intro hslot
    change (encDataFullEffect b s).out.read .out s.wr = b ∧ (encDataFullEffect b s).out.read .out s.slot = 0xFF#8
    rw [read_out_encDataFullEffect (by omega), read_out_encDataFullEffect (by omega), if_neg hslot.ne', if_pos rfl,
      if_pos rfl]
    exact ⟨rfl, hfull⟩
  · refine bytesKeptExcept_out (by simp [encDataFullEffect]) (by simp [encDataFullEffect]) (by simp [encDataFullEffect])
      fun i hi => ?_
    obtain ⟨hwr, hslot, hnew⟩ : i ≠ s.wr ∧ i ≠ s.slot ∧ i ≠ s.wr + 1 := by omega
    rw [read_out_encDataFullEffect hnew, if_neg hslot, if_neg hwr]

end Sys2Proof.Machine
end

section
/-! PROOFS. The Frame of ENCODE is the closed form of the Payload (rules R129, R132), and its exact length (rule R135). -/

namespace Sys2Proof.Machine

open Sys2Proof

variable {s : State} {x r : List Byte} {rs : List (List Byte)}

/-! ## The runs of a sequence (rule R129) -/

theorem zeroFreeRuns_zero (x : List Byte) : zeroFreeRuns (Config.delim :: x) = [] :: zeroFreeRuns x := if_pos rfl

theorem zeroFreeRuns_data {b : Byte} (hb : b ≠ Config.delim) (h : zeroFreeRuns x = r :: rs) :
    zeroFreeRuns (b :: x) = (b :: r) :: rs := by
  rw [zeroFreeRuns, if_neg hb, h]

theorem exists_zeroFreeRuns_eq_cons (x : List Byte) : ∃ r rs, zeroFreeRuns x = r :: rs := by
  induction x with
  | nil => exact ⟨[], [], rfl⟩
  | cons b x ih =>
    by_cases hb : b = Config.delim
    · subst hb; exact ⟨[], zeroFreeRuns x, zeroFreeRuns_zero x⟩
    · obtain ⟨r, rs, h⟩ := ih
      exact ⟨b :: r, rs, zeroFreeRuns_data hb h⟩

theorem zeroFreeRuns_of_notMem (h : Config.delim ∉ x) : zeroFreeRuns x = [x] := by
  induction x with
  | nil => rfl
  | cons b x ih =>
    obtain ⟨hb, hx⟩ := not_or.1 (fun hm => h (List.mem_cons.2 hm))
    exact zeroFreeRuns_data (Ne.symm hb) (ih hx)

/-- The runs and the 0x00 bytes between them are the whole sequence. -/
theorem sum_length_zeroFreeRuns (x : List Byte) :
    ((zeroFreeRuns x).map fun r => r.length + 1).sum = x.length + 1 := by
  induction x with
  | nil => rfl
  | cons b x ih =>
    by_cases hb : b = Config.delim
    · subst hb
      rw [zeroFreeRuns_zero, List.map_cons, List.sum_cons, ih, List.length_cons, List.length_nil]
      omega
    · obtain ⟨r, rs, h⟩ := exists_zeroFreeRuns_eq_cons x
      rw [h, List.map_cons, List.sum_cons] at ih
      rw [zeroFreeRuns_data hb h, List.map_cons, List.sum_cons, List.length_cons, List.length_cons]
      omega

/-! ## The emission of one run -/

theorem emitRun_of_short {d : List Byte} (h : d.length ≤ 253) : emitRun d = shortBlock d := by
  rw [emitRun, Nat.div_eq_of_lt (by omega)]; rfl

theorem emitRun_of_full {d : List Byte} (h : d.length = 254) (r : List Byte) :
    emitRun (d ++ r) = Config.ovhFull :: d ++ emitRun r := by
  have hq : (d ++ r).length / 254 = r.length / 254 + 1 := by rw [List.length_append, h]; omega
  rw [emitRun, hq, emitBlocks, List.take_left' h, List.drop_left' h]
  rfl

theorem length_emitBlocks (q : Nat) (r : List Byte) (h : 254 * q ≤ r.length) :
    (emitBlocks q r).length = r.length + q + 1 := by
  induction q generalizing r with
  | zero => simp [emitBlocks]
  | succ q ih =>
    have hrest := ih (r.drop 254) (by rw [List.length_drop]; omega)
    rw [List.length_drop] at hrest
    rw [emitBlocks, List.length_cons, List.length_append, List.length_take, hrest]
    omega

theorem length_emitRun (r : List Byte) : (emitRun r).length = r.length + 1 + r.length / 254 := by
  rw [emitRun, length_emitBlocks _ r (Nat.mul_div_le _ _)]
  omega

/-! ## The closed form -/

/-- The stuffing emits the runs: the data of the open block is the beginning of the first one. -/
theorem stuff_eq_emitRuns (x d : List Byte) (hlen : d.length ≤ 253) (h : zeroFreeRuns x = r :: rs) :
    stuff d x = emitRun (d ++ r) ++ rs.flatMap emitRun := by
  induction x generalizing d r rs with
  | nil =>
    obtain ⟨rfl, rfl⟩ := List.cons.inj h
    simp [stuff, emitRun_of_short hlen]
  | cons b x ih =>
    obtain ⟨r', rs', h'⟩ := exists_zeroFreeRuns_eq_cons x
    rw [stuff]
    split_ifs with hb hopen
    · subst hb
      rw [zeroFreeRuns_zero, h'] at h
      obtain ⟨rfl, rfl⟩ := List.cons.inj h
      rw [ih [] (by simp) h', List.append_nil, emitRun_of_short hlen]
      rfl
    · rw [zeroFreeRuns_data hb h'] at h
      obtain ⟨rfl, rfl⟩ := List.cons.inj h
      rw [ih (d ++ [b]) (by simp; omega) h', List.append_assoc, List.singleton_append]
    · rw [zeroFreeRuns_data hb h'] at h
      obtain ⟨rfl, rfl⟩ := List.cons.inj h
      have hfull : (d ++ [b]).length = 254 := by simp; omega
      rw [ih [] (by simp) h', List.append_cons d b r', emitRun_of_full hfull]
      simp

/-- The stuffing of a whole sequence, with its Delimiter, is the Frame of rule R129. -/
theorem stuff_nil_eq_frameOf (x : List Byte) : stuff [] x ++ [Config.delim] = frameOf x := by
  obtain ⟨r, rs, h⟩ := exists_zeroFreeRuns_eq_cons x
  rw [stuff_eq_emitRuns x [] (by simp) h, frameOf, h]
  rfl

theorem bytesOf_out_encodeRun (s : State) :
    bytesOf (encodeRun s) .out = frameOf (extendedMessage (bytesOf s .input)) := by
  rw [encodeRun_bytes, stuff_nil_eq_frameOf]

theorem encodeRun_inp (s : State) : (encodeRun s).inp = s.inp := by rw [encodeRun_frame]
theorem encodeRun_rb (s : State) : (encodeRun s).rb = s.rb := by rw [encodeRun_frame]
theorem encodeRun_store (s : State) : (encodeRun s).store = s.store := by rw [encodeRun_frame]
theorem encodeRun_phase (s : State) : (encodeRun s).phase = .idle := by rw [encodeRun_frame]
theorem encodeRun_params (s : State) : (encodeRun s).params = s.params := by rw [encodeRun_frame]
theorem encodeRun_acc (s : State) : (encodeRun s).acc = xorFold (bytesOf s .input) := by rw [encodeRun_frame]
theorem encodeRun_si (s : State) : (encodeRun s).si = s.inp.len + 1 := by rw [encodeRun_frame]
theorem encodeRun_ok (s : State) : (encodeRun s).ok = s.ok := by rw [encodeRun_frame]
theorem encodeRun_res (s : State) : (encodeRun s).res = s.res := by rw [encodeRun_frame]
theorem encodeRun_host (s : State) : (encodeRun s).host = s.host := by rw [encodeRun_frame]

/-- Settles O19: the loop's invariant gives the stuffing of the Extended Message, which is the closed form. -/
theorem encodeYieldsTheClosedForm : Obligations.EncodeYieldsTheClosedForm := by
  intro s hphase hfits
  refine ⟨encodeRun s, exec_encode_of_idle hphase hfits, bytesOf_out_encodeRun s, ?_,
    bytesKeptExcept_all_out (encodeRun_inp s) (encodeRun_rb s) (encodeRun_store s)⟩
  rw [encodeRun_acc, encodeRun_si, hphase]
  exact encodeRun_frame s

/-! ## The length (rule R135) -/

theorem length_frameOf (x : List Byte) : (frameOf x).length = x.length + fullCloses x + 2 := by
  have hruns : ((zeroFreeRuns x).map fun r => (emitRun r).length) =
      (zeroFreeRuns x).map fun r => (r.length + 1) + r.length / 254 := List.map_congr_left fun r _ => length_emitRun r
  rw [frameOf, List.length_append, List.length_flatMap, hruns, List.sum_map_add, sum_length_zeroFreeRuns, fullCloses]
  simp
  omega

/-- Each full close takes 254 bytes of its run. -/
theorem sum_div_le_sum_length (runs : List (List Byte)) :
    254 * (runs.map fun r => r.length / 254).sum + runs.length ≤ (runs.map fun r => r.length + 1).sum := by
  induction runs with
  | nil => rfl
  | cons r runs ih =>
    rw [List.map_cons, List.sum_cons, List.map_cons, List.sum_cons, List.length_cons]
    omega

theorem fullCloses_le (x : List Byte) : fullCloses x ≤ x.length / 254 := by
  obtain ⟨r, rs, h⟩ := exists_zeroFreeRuns_eq_cons x
  have hsum := sum_div_le_sum_length (zeroFreeRuns x)
  have hruns : 1 ≤ (zeroFreeRuns x).length := by simp [h]
  rw [sum_length_zeroFreeRuns] at hsum
  rw [fullCloses]
  omega

theorem fullCloses_of_notMem (h : Config.delim ∉ x) : fullCloses x = x.length / 254 := by
  simp [fullCloses, zeroFreeRuns_of_notMem h]

theorem fullCloses_eq_zero_iff (x : List Byte) : fullCloses x = 0 ↔ ∀ r ∈ zeroFreeRuns x, r.length < 254 := by
  simp [fullCloses, List.sum_eq_zero_iff, Nat.div_eq_zero_iff]

theorem length_extendedMessage (s : State) : (extendedMessage (bytesOf s .input)).length = xLen s := by
  simp [extendedMessage, xLen]

theorem out_len_encodeRun (s : State) :
    (encodeRun s).out.len = xLen s + fullCloses (extendedMessage (bytesOf s .input)) + 2 := by
  rw [← buf_out, ← bytesOf_length, bytesOf_out_encodeRun, length_frameOf, length_extendedMessage]

/-- Settles O22: the exact length, with `K` at most `n / 254` and equal to it when no 0x00 cuts the sequence; the rest is
arithmetic. -/
theorem encodeLengthIsExact : Obligations.EncodeLengthIsExact := by
  intro s hphase hfits
  have hlen := out_len_encodeRun s
  have hle := fullCloses_le (extendedMessage (bytesOf s .input))
  have huncut := fullCloses_of_notMem (x := extendedMessage (bytesOf s .input))
  have hzero := fullCloses_eq_zero_iff (extendedMessage (bytesOf s .input))
  rw [length_extendedMessage] at hle huncut
  refine ⟨encodeRun s, exec_encode_of_idle hphase hfits, hlen, by omega, by omega, by omega, ?_, ?_, by omega, ?_, ?_⟩
  · intro hnot
    rw [hlen, huncut hnot]
  · rw [← hzero]
    omega
  · intro hmul hnot
    rw [hlen, huncut hnot]
    omega
  · intro m hm
    have hcap : s.inp.len ≤ m := by simpa [payloadFits, Config.fits, hm] using hfits
    have hx : xLen s = s.inp.len + 1 := rfl
    have hdiv : xLen s / 254 ≤ (m + 1) / 254 := Nat.div_le_div_right (by omega)
    rw [Config.outCapacity]
    omega

end Sys2Proof.Machine
end

section
/-! PROOFS. DEC.VALIDATE and DECODE as functions of `RB` and of the input (rules R168 to R174), and what the scan does not read
(rule R162). -/

namespace Sys2Proof.Machine

open Sys2Proof

variable {s t u : State} {f : List Byte}

/-! ## DEC.VALIDATE -/

@[simp] theorem decValidateEffect_rb (s : State) : (decValidateEffect s).rb = s.rb := by
  rw [decValidateEffect_eq]; split_ifs <;> rfl

@[simp] theorem decValidateEffect_inp (s : State) : (decValidateEffect s).inp = s.inp := by
  rw [decValidateEffect_eq]; split_ifs <;> rfl

/-- DEC.VALIDATE writes the Store, `OK`, the place and the checksum engine's registers, and nothing else. -/
theorem decValidateEffect_frame (s : State) :
    decValidateEffect s =
      { s with
        store := (decValidateEffect s).store, ok := (decValidateEffect s).ok, phase := .idle,
        acc := (decValidateEffect s).acc, si := (decValidateEffect s).si } := by
  rw [decValidateEffect_eq]; split_ifs <;> rfl

/-- The place from which the validation is reached does not matter. -/
theorem decValidateEffect_setPhase (p : Phase) (s : State) : decValidateEffect { s with phase := p } = decValidateEffect s := by
  rw [decValidateEffect_eq, decValidateEffect_eq]; rfl

/-- The empty arm (rule R169). -/
theorem decValidateEffect_of_empty (h : s.rb.len = 0) : decValidateEffect s = { s with ok := false, phase := .idle } := by
  rw [decValidateEffect_eq, if_pos h]

theorem length_receivedMessage (s : State) : (receivedMessage s).length = s.rb.len - 1 := by simp [receivedMessage]

/-- The success arm (rule R170). -/
theorem decValidateEffect_of_match (hlen : s.rb.len ≠ 0) (hsum : xorFold (receivedMessage s) = receivedChecksum s) :
    decValidateEffect s =
      { s with
        store := Buffer.ofBytes (receivedMessage s), ok := true, phase := .idle,
        acc := xorFold (receivedMessage s), si := s.rb.len - 1 } := by
  rw [decValidateEffect_eq, if_neg hlen, if_pos hsum, length_receivedMessage]

/-- The mismatch arm (rule R171). -/
theorem decValidateEffect_of_mismatch (hlen : s.rb.len ≠ 0) (hsum : xorFold (receivedMessage s) ≠ receivedChecksum s) :
    decValidateEffect s =
      { s with ok := false, phase := .idle, acc := xorFold (receivedMessage s), si := s.rb.len - 1 } := by
  rw [decValidateEffect_eq, if_neg hlen, if_neg hsum, length_receivedMessage]

/-- DEC.VALIDATE reads `RB` and keeps it, so a second one does the same again. -/
theorem decValidateEffect_idem (s : State) : decValidateEffect (decValidateEffect s) = decValidateEffect s := by
  by_cases hlen : s.rb.len = 0
  · rw [decValidateEffect_of_empty hlen]
    exact decValidateEffect_of_empty hlen
  · by_cases hsum : xorFold (receivedMessage s) = receivedChecksum s
    · rw [decValidateEffect_of_match hlen hsum]
      exact decValidateEffect_of_match hlen hsum
    · rw [decValidateEffect_of_mismatch hlen hsum]
      exact decValidateEffect_of_mismatch hlen hsum

/-- The Store after DEC.VALIDATE. -/
theorem decValidateEffect_store (s : State) :
    (decValidateEffect s).store =
      if (decValidateEffect s).ok then Buffer.ofBytes (bytesOf s .rb).dropLast else s.store := by
  rw [← receivedMessage_eq, decValidateEffect_eq]; split_ifs <;> simp_all

/-- An update that writes no buffer but the Store. -/
theorem bytesKeptExcept_store (hinp : t.inp = s.inp) (hout : t.out = s.out) (hrb : t.rb = s.rb) :
    BytesKeptExcept (fun sp _ => sp = .store) s t := by
  intro sp i hkept
  cases sp with
  | input => simp [memRead, hinp]
  | out => simp [memRead, hout]
  | rb => simp [memRead, hrb]
  | store => exact absurd rfl hkept

/-- Settles O30: the hypotheses choose the success arm. -/
theorem matchingChecksumReplacesTheStore : Obligations.MatchingChecksumReplacesTheStore := by
  intro s hover hlen hsum
  rw [← receivedMessage_eq] at hsum ⊢
  have hne : s.rb.len ≠ 0 := by omega
  have heq := decValidateEffect_of_match hne hsum
  refine ⟨decValidateEffect s, exec_decValidate_next_iff.2 ⟨hover, rfl⟩, ?_, ?_, ?_, ?_, ?_⟩
  · rw [heq]
  · rw [heq]
    exact Buffer.firstBytes_ofBytes .store (receivedMessage s)
  · rw [heq]
    exact length_receivedMessage s
  · rw [failCause, if_neg hne]
    exact if_pos hsum
  · rw [heq]
    exact bytesKeptExcept_store rfl rfl rfl

/-- Settles O31: the hypotheses choose the mismatch arm; a one-byte `RB` is its own checksum byte, and the empty message folds to
0x00. -/
theorem mismatchLeavesTheStore : Obligations.MismatchLeavesTheStore := by
  refine ⟨fun s hover hlen hsum => ?_, fun s b hbytes hb hsum => ?_⟩
  · rw [← receivedMessage_eq] at hsum ⊢
    have hne : s.rb.len ≠ 0 := by omega
    refine ⟨exec_decValidate_next_iff.2 ⟨hover, (decValidateEffect_of_mismatch hne hsum).symm⟩, ?_⟩
    rw [failCause, if_neg hne]
    exact if_neg hsum
  · have hlen : s.rb.len = 1 := by simpa using (bytesOf_length s .rb).symm.trans (congrArg List.length hbytes)
    have hread : some b = some (memRead s .rb 0) := by
      rw [← bytesOf_getElem? s .rb (i := 0) (by simp [hlen]), hbytes]; rfl
    rw [hbytes, hlen] at hsum
    exact hb ((Option.some.inj hread).trans hsum.symm)

/-! ## DECODE -/

theorem exec_decode_of_idle (hphase : s.phase = .idle) (hfits : frameFits s = true) :
    exec .decode s = .next (decodeRun s) := by
  simp [exec, execDecode, busy_of_idle hphase, hfits]

/-- The scan's registers when the scan of a whole input has ended. -/
def scanned (f : List Byte) : ScanRegs := scanBytes f initialRegs

/-- DECODE is the scan of the input and the validation of what it leaves. -/
theorem decodeRun_eq (s : State) : decodeRun s = decValidateEffect (withScanRegs (scanned (bytesOf s .input)) s) := by
  rw [decodeRun_eq_validate, decodeScanned_eq]
  exact decValidateEffect_setPhase _ _

theorem scanRegs_decodeRun (s : State) : scanRegs (decodeRun s) = scanned (bytesOf s .input) := by
  rw [decodeRun_eq, decValidateEffect_frame]; rfl

theorem decodeRun_rb (s : State) : (decodeRun s).rb = (scanned (bytesOf s .input)).rb := by rw [← scanRegs_decodeRun]; rfl
theorem decodeRun_cnt (s : State) : (decodeRun s).cnt = (scanned (bytesOf s .input)).cnt := by rw [← scanRegs_decodeRun]; rfl
theorem decodeRun_term (s : State) : (decodeRun s).term = (scanned (bytesOf s .input)).term := by rw [← scanRegs_decodeRun]; rfl
theorem decodeRun_fi (s : State) : (decodeRun s).fi = (scanned (bytesOf s .input)).fi := by rw [← scanRegs_decodeRun]; rfl

/-- DECODE writes what the scan and the validation write, and nothing else. -/
theorem decodeRun_frame (s : State) :
    decodeRun s =
      { s with
        store := (decodeRun s).store, ok := (decodeRun s).ok, rb := (decodeRun s).rb, fi := (decodeRun s).fi,
        cnt := (decodeRun s).cnt, first := (decodeRun s).first, prevFull := (decodeRun s).prevFull,
        term := (decodeRun s).term, acc := (decodeRun s).acc, si := (decodeRun s).si, phase := .idle } := by
  rw [decodeRun_eq, decValidateEffect_frame]; rfl

theorem decodeRun_inp (s : State) : (decodeRun s).inp = s.inp := by rw [decodeRun_frame]
theorem decodeRun_out (s : State) : (decodeRun s).out = s.out := by rw [decodeRun_frame]
theorem decodeRun_res (s : State) : (decodeRun s).res = s.res := by rw [decodeRun_frame]
theorem decodeRun_phase (s : State) : (decodeRun s).phase = .idle := by rw [decodeRun_frame]
theorem decodeRun_params (s : State) : (decodeRun s).params = s.params := by rw [decodeRun_frame]
theorem decodeRun_host (s : State) : (decodeRun s).host = s.host := by rw [decodeRun_frame]

theorem bytesOf_rb_withScanRegs_scanned (f : List Byte) (s : State) :
    bytesOf (withScanRegs (scanned f) s) .rb = reconstruct f :=
  bytes_scanBytes_initialRegs f

theorem bytesOf_rb_decodeRun (s : State) : bytesOf (decodeRun s) .rb = reconstruct (bytesOf s .input) := by
  rw [decodeRun_eq, bytesOf, bufLen, buf_rb, decValidateEffect_rb]
  exact bytes_scanBytes_initialRegs (bytesOf s .input)

theorem rb_len_decodeRun (s : State) : (decodeRun s).rb.len = (reconstruct (bytesOf s .input)).length := by
  rw [← bytesOf_rb_decodeRun, bytesOf_length, buf_rb]

theorem accepts_iff {r : List Byte} : accepts r = true ↔ r ≠ [] ∧ xorFold r = 0x00#8 := by simp [accepts]

/-- `OK` is the verdict on the reconstruction (rule R174). -/
theorem decodeRun_ok (s : State) : (decodeRun s).ok = accepts (reconstruct (bytesOf s .input)) := by
  rw [Bool.eq_iff_iff, decodeRun_eq, decValidateEffect_ok, Option.isNone_iff_eq_none, failCause_eq_none_iff,
    bytesOf_rb_withScanRegs_scanned, accepts_iff]

/-- The Store is the accepted message, or as it was (rule R174). -/
theorem decodeRun_store (s : State) :
    (decodeRun s).store =
      if accepts (reconstruct (bytesOf s .input)) then Buffer.ofBytes (reconstruct (bytesOf s .input)).dropLast
      else s.store := by
  rw [← decodeRun_ok, decodeRun_eq, decValidateEffect_store, bytesOf_rb_withScanRegs_scanned]
  rfl

theorem decodeRun_store_of_accepts (h : accepts (reconstruct (bytesOf s .input)) = true) :
    (decodeRun s).store = Buffer.ofBytes (reconstruct (bytesOf s .input)).dropLast := by
  rw [decodeRun_store, if_pos h]

theorem decodeRun_store_of_rejects (h : accepts (reconstruct (bytesOf s .input)) = false) :
    (decodeRun s).store = s.store := by
  rw [decodeRun_store, h]; rfl

theorem bytesOf_store_decodeRun (h : accepts (reconstruct (bytesOf s .input)) = true) :
    bytesOf (decodeRun s) .store = (reconstruct (bytesOf s .input)).dropLast := by
  rw [bytesOf, bufLen, buf_store, decodeRun_store_of_accepts h]
  exact Buffer.firstBytes_ofBytes .store _

theorem store_len_decodeRun (h : accepts (reconstruct (bytesOf s .input)) = true) :
    (decodeRun s).store.len + 1 = (decodeRun s).rb.len := by
  have hpos : 0 < (reconstruct (bytesOf s .input)).length := List.length_pos_iff.2 (accepts_iff.1 h).1
  rw [decodeRun_store_of_accepts h, Buffer.ofBytes_len, List.length_dropLast, rb_len_decodeRun]
  omega

/-- An update that writes no buffer but `RB` and the Store. -/
theorem bytesKeptExcept_rb_store (hinp : t.inp = s.inp) (hout : t.out = s.out) :
    BytesKeptExcept (fun sp _ => sp = .rb ∨ sp = .store) s t := by
  intro sp i hkept
  cases sp with
  | input => simp [memRead, hinp]
  | out => simp [memRead, hout]
  | rb => exact absurd (.inl rfl) hkept
  | store => exact absurd (.inr rfl) hkept

/-- Settles O33: the scan leaves the reconstruction in `RB`, and the validation is a function of it and of the old Store. -/
theorem decodeYieldsTheClosedForm : Obligations.DecodeYieldsTheClosedForm := by
  intro s hphase hfits
  refine ⟨decodeRun s, exec_decode_of_idle hphase hfits, bytesOf_rb_decodeRun s, by rw [decodeRun_ok, accepts_iff], ?_, ?_, ?_,
    bytesKeptExcept_rb_store (decodeRun_inp s) (decodeRun_out s)⟩
  · intro hok
    rw [decodeRun_ok] at hok
    exact ⟨bytesOf_store_decodeRun hok, store_len_decodeRun hok⟩
  · intro hok
    rw [decodeRun_ok] at hok
    exact decodeRun_store_of_rejects hok
  · rw [hphase]
    exact decodeRun_frame s

/-! ## Which inputs leave `RB` empty (rule R169) -/

theorem joinAfter_true_eq_nil_iff {bs : List Block} : joinAfter true bs = [] ↔ bs = [] := by
  cases bs <;> simp [joinAfter]

theorem parseBlocks_delim (n : Nat) (f : List Byte) : parseBlocks n (Config.delim :: f) = [] := by
  cases n <;> simp [parseBlocks]

theorem parseBlocks_cons (n : Nat) {l : Byte} (hl : l ≠ Config.delim) (f : List Byte) :
    parseBlocks (n + 1) (l :: f) = ⟨l, f.take (l.toNat - 1)⟩ :: parseBlocks n (f.drop (l.toNat - 1)) := by
  rw [parseBlocks, if_neg hl]

theorem reconstruct_delim (f : List Byte) : reconstruct (Config.delim :: f) = [] := by
  rw [reconstruct, parseBlocks_delim]; rfl

theorem reconstruct_cons {l : Byte} (hl : l ≠ Config.delim) (f : List Byte) :
    reconstruct (l :: f) =
      f.take (l.toNat - 1) ++ joinAfter (!isFull l) (parseBlocks f.length (f.drop (l.toNat - 1))) := by
  rw [reconstruct, List.length_cons, parseBlocks_cons _ hl, joinBlocks_cons]

theorem reconstruct_eq_nil_iff (f : List Byte) :
    reconstruct f = [] ↔
      f = [] ∨ (∃ r, f = Config.delim :: r) ∨ (∃ l, f = [l]) ∨ ∃ r, f = 0x01#8 :: Config.delim :: r := by
  rcases f with _ | ⟨l, _ | ⟨b, f⟩⟩
  · simp [reconstruct, parseBlocks, joinBlocks]
  · by_cases hl : l = Config.delim
    · subst hl; simp [reconstruct_delim]
    · simp [reconstruct_cons hl, parseBlocks, joinAfter]
  · by_cases hl : l = Config.delim
    · subst hl; simp [reconstruct_delim]
    · by_cases hone : l = 0x01#8
      · subst hone
        by_cases hb : b = Config.delim
        · subst hb; simp [reconstruct_cons hl, parseBlocks_delim, joinAfter]
        · have hshort : isFull 0x01#8 = false := rfl
          simp [reconstruct_cons hl, hshort, joinAfter_true_eq_nil_iff, parseBlocks_cons _ hb, hb, hl]
      · have htake : l.toNat - 1 ≠ 0 := by
          unfold Config.delim at hl
          bv_omega
        simp [reconstruct_cons hl, htake, hl, hone]

theorem exec_decValidate_of_empty (hover : scanOver s = true) (hlen : s.rb.len = 0) :
    exec .decValidate s = .next { s with ok := false, phase := .idle } :=
  exec_decValidate_next_iff.2 ⟨hover, (decValidateEffect_of_empty hlen).symm⟩

/-- Settles O29: `RB` is empty exactly when the reconstruction is. -/
theorem emptyReconstructionFails : Obligations.EmptyReconstructionFails := by
  refine ⟨fun s hover hlen => ⟨exec_decValidate_of_empty hover hlen, if_pos hlen⟩, fun s hphase hfits => ?_⟩
  refine ⟨decodeRun s, exec_decode_of_idle hphase hfits, ?_, fun hlen => ?_⟩
  · rw [rb_len_decodeRun, List.length_eq_zero_iff]
    exact reconstruct_eq_nil_iff _
  · rw [rb_len_decodeRun, List.length_eq_zero_iff] at hlen
    have hrejects : accepts (reconstruct (bytesOf s .input)) = false := by rw [hlen]; rfl
    exact ⟨(decodeRun_ok s).trans hrejects, decodeRun_store_of_rejects hrejects⟩

/-! ## What the scan does not read (rule R162) -/

/-- A scan that ended at the Delimiter ends there whatever follows. -/
theorem scanBytes_append_of_term (f g : List Byte) (r : ScanRegs) (h : (scanBytes f r).term = true) :
    scanBytes (f ++ g) r = scanBytes f r := by
  induction f generalizing r with
  | nil => exact scanBytes_term h g
  | cons b f ih =>
    rw [List.cons_append, scanBytes, scanBytes]
    split
    case isTrue => rfl
    case isFalse hterm => exact ih _ (by rwa [scanBytes, if_neg hterm] at h)

theorem scanned_append_of_term (g : List Byte) (h : (scanned f).term = true) : scanned (f ++ g) = scanned f :=
  scanBytes_append_of_term f g initialRegs h

/-- The reconstruction is a function of what the scan leaves. -/
theorem reconstruct_append_of_term (g : List Byte) (h : (scanned f).term = true) : reconstruct (f ++ g) = reconstruct f := by
  rw [← bytes_scanBytes_initialRegs, ← bytes_scanBytes_initialRegs]
  exact congrArg ScanRegs.bytes (scanned_append_of_term g h)

/-- Settles O34: the scan's registers are the same, and the verdict and the Store follow from them and the old Store. -/
theorem bytesAfterTheDelimiterAreNeverRead : Obligations.BytesAfterTheDelimiterAreNeverRead := by
  intro s u junk _ huphase _ hufits hinput hstore t hexec hterm
  obtain ⟨-, -, rfl⟩ := exec_decode_next hexec
  rw [decodeRun_term] at hterm
  have hscan := scanned_append_of_term junk hterm
  refine ⟨decodeRun u, exec_decode_of_idle huphase hufits, ?_, ?_, ?_, ?_, ?_⟩
  · rw [decodeRun_ok, decodeRun_ok, hinput, reconstruct_append_of_term junk hterm]
  · rw [decodeRun_store, decodeRun_store, hinput, reconstruct_append_of_term junk hterm, hstore]
  · rw [decodeRun_rb, decodeRun_rb, hinput, hscan]
  · rw [decodeRun_fi, decodeRun_fi, hinput, hscan]
  · rw [decodeRun_term, hinput, hscan, hterm]

/-! ## Repeated operations (rule R56) -/

theorem bytesOf_input_congr (h : t.inp = s.inp) : bytesOf t .input = bytesOf s .input := by
  rw [bytesOf, bufLen, buf_input, h]; rfl

/-- CHECKSUM reads the input alone, which it keeps. -/
theorem checksum_idem (s : State) :
    takeResult (foldBytes (bytesOf (takeResult (foldBytes (bytesOf s .input) s)) .input)
      (takeResult (foldBytes (bytesOf s .input) s))) = takeResult (foldBytes (bytesOf s .input) s) := by
  rw [takeResult_foldBytes_eq s]
  exact takeResult_foldBytes_eq _

/-- DECODE reads the input and `RB`; the one it keeps, the other it has scanned from it. -/
theorem decodeRun_idem (s : State) : decodeRun (decodeRun s) = decodeRun s := by
  rw [decodeRun_eq (decodeRun s), bytesOf_input_congr (decodeRun_inp s), ← scanRegs_decodeRun, withScanRegs_scanRegs,
    decodeRun_eq, decValidateEffect_idem]

/-- Settles O43: each of the three operations writes what it computes from elements that it keeps. -/
theorem repeatedOperationChangesNothing : Obligations.RepeatedOperationChangesNothing := by
  rintro s t i (rfl | rfl | rfl) h
  · obtain ⟨hphase, hfits, rfl⟩ := exec_checksum_next h
    have hfits' : payloadFits (takeResult (foldBytes (bytesOf s .input) s)) = true := by simpa [payloadFits] using hfits
    rw [exec_checksum_of_idle (by simpa using hphase) hfits', checksum_idem]
  · obtain ⟨-, hfits, rfl⟩ := exec_decode_next h
    have hfits' : frameFits (decodeRun s) = true := by rwa [frameFits, decodeRun_params, decodeRun_inp]
    rw [exec_decode_of_idle (decodeRun_phase s) hfits', decodeRun_idem]
  · obtain ⟨hphase, rfl⟩ := exec_getmsg_next h
    rw [exec_getmsg_of_idle (s := copyStoreOut s) hphase, copyStoreOut_idem]

end Sys2Proof.Machine
end

section
/-! PROOFS. Framing and the scan are inverse to each other on the canonical Frames (rules R90, R173). -/

namespace Sys2Proof.Machine

open Sys2Proof

variable {b : Block} {blocks : List Block} {f x : List Byte}

/-! ## Blocks of the right length -/

/-- The Overhead byte counts the data, whatever the data bytes are: what the scan asks of a Block that it reads as a whole. -/
def Counted (b : Block) : Prop := b.overhead ≠ Config.delim ∧ b.data.length + 1 = b.overhead.toNat

theorem blockWf_iff : blockWf b = true ↔ Counted b ∧ Config.delim ∉ b.data := by
  simp only [blockWf, Counted, Bool.and_eq_true, bne_iff_ne, decide_eq_true_eq, List.all_eq_true]
  exact and_congr_right fun _ => ⟨fun h hmem => h _ hmem rfl, fun h d hd heq => h (heq ▸ hd)⟩

theorem counted_of_blockWf (h : blockWf b = true) : Counted b := (blockWf_iff.1 h).1

theorem forall_counted_of_all_blockWf (h : blocks.all blockWf = true) : ∀ b ∈ blocks, Counted b :=
  fun b hb => counted_of_blockWf (List.all_eq_true.1 h b hb)

theorem length_data_le (h : Counted b) : b.data.length ≤ 254 := by
  have := b.overhead.isLt
  have := h.2
  omega

/-- The Overhead byte of such a Block is given by its data. -/
theorem eq_blockOf (h : Counted b) : b = blockOf b.data := by
  obtain ⟨l, d⟩ := b
  have hl : l = BitVec.ofNat 8 (d.length + 1) := by
    rw [h.2]
    simp
  rw [hl]; rfl

theorem blockBytes_eq_shortBlock (h : Counted b) : blockBytes b = shortBlock b.data := by
  conv_lhs => rw [eq_blockOf h]
  rfl

theorem overhead_eq_full_iff (h : Counted b) : b.overhead = Config.ovhFull ↔ b.data.length = 254 := by
  have hcount := h.2
  unfold Config.ovhFull
  constructor
  · intro hfull
    rw [hfull] at hcount
    simpa using hcount
  · intro hlen
    bv_omega

/-! ## Reading blocks back -/

theorem parseBlocks_blockBytes (n : Nat) (h : Counted b) (f : List Byte) :
    parseBlocks (n + 1) (blockBytes b ++ f) = b :: parseBlocks n f := by
  have hlen : b.data.length = b.overhead.toNat - 1 := by have := h.2; omega
  rw [blockBytes, List.cons_append, parseBlocks_cons n h.1, List.take_left' hlen, List.drop_left' hlen]

theorem parseBlocks_flatMap (n : Nat) (h : ∀ b ∈ blocks, Counted b) (f : List Byte) :
    parseBlocks (n + blocks.length) (blocks.flatMap blockBytes ++ f) = blocks ++ parseBlocks n f := by
  induction blocks with
  | nil => rfl
  | cons b blocks ih =>
    rw [List.flatMap_cons, List.append_assoc, List.length_cons, ← Nat.add_assoc, parseBlocks_blockBytes _ (h b (by simp)),
      ih fun c hc => h c (by simp [hc])]
    rfl

theorem length_le_length_flatMap (blocks : List Block) : blocks.length ≤ (blocks.flatMap blockBytes).length := by
  induction blocks with
  | nil => rfl
  | cons b blocks ih =>
    rw [List.flatMap_cons, List.length_append, blockBytes, List.length_cons, List.length_cons]
    omega

/-- Blocks, and then something at which no block begins: the scan joins the blocks. -/
theorem reconstruct_flatMap_append (h : ∀ b ∈ blocks, Counted b) (hf : ∀ n, parseBlocks n f = []) :
    reconstruct (blocks.flatMap blockBytes ++ f) = joinBlocks blocks := by
  have hlen : (blocks.flatMap blockBytes ++ f).length =
      (blocks.flatMap blockBytes).length + f.length - blocks.length + blocks.length := by
    have := length_le_length_flatMap blocks
    rw [List.length_append]
    omega
  rw [reconstruct, hlen, parseBlocks_flatMap _ h, hf, List.append_nil]

theorem reconstruct_frameBytes (h : ∀ b ∈ blocks, Counted b) : reconstruct (frameBytes blocks) = joinBlocks blocks :=
  reconstruct_flatMap_append h fun n => parseBlocks_delim n []

theorem parseBlocks_nil (n : Nat) : parseBlocks n [] = [] := by cases n <;> rfl

/-- Without the Delimiter the same blocks are joined. -/
theorem reconstruct_flatMap (h : ∀ b ∈ blocks, Counted b) :
    reconstruct (blocks.flatMap blockBytes) = joinBlocks blocks := by
  have := reconstruct_flatMap_append (f := []) h parseBlocks_nil
  rwa [List.append_nil] at this

/-- A sequence of bytes is the Frame of one sequence of Blocks at most. -/
theorem frameBytes_injective {bs cs : List Block} (hb : ∀ b ∈ bs, Counted b) (hc : ∀ c ∈ cs, Counted c)
    (h : frameBytes bs = frameBytes cs) : bs = cs := by
  have hbs := parseBlocks_flatMap cs.length hb [Config.delim]
  have hcs := parseBlocks_flatMap bs.length hc [Config.delim]
  rw [parseBlocks_delim, List.append_nil] at hbs hcs
  calc
    bs = parseBlocks (cs.length + bs.length) (frameBytes bs) := hbs.symm
    _ = parseBlocks (bs.length + cs.length) (frameBytes cs) := by rw [h, Nat.add_comm]
    _ = cs := hcs

/-! ## Joining blocks (rule R173) -/

/-- The byte that is restored after a Block when another follows: a 0x00 after a short one, none after a full one. -/
def separator (b : Block) : List Byte := if b.overhead = Config.ovhFull then [] else [Config.delim]

theorem separator_of_full (h : b.overhead = Config.ovhFull) : separator b = [] := if_pos h

theorem separator_of_short (h : b.overhead ≠ Config.ovhFull) : separator b = [Config.delim] := if_neg h

theorem joinBlocks_concat (blocks : List Block) (b : Block) :
    joinBlocks (blocks ++ [b]) = blocks.flatMap (fun c => c.data ++ separator c) ++ b.data := by
  induction blocks with
  | nil => rfl
  | cons c blocks ih =>
    obtain ⟨d, ds, hd⟩ : ∃ d ds, blocks ++ [b] = d :: ds := List.exists_cons_of_ne_nil (by simp)
    rw [hd] at ih
    rw [List.cons_append, hd, joinBlocks, ih, List.flatMap_cons]
    simp [separator]

/-- A Block before a canonical Frame adds its data and its separator to the reconstruction. -/
theorem reconstruct_blockBytes_append (h : Counted b) (hf : CanonicalFrame f) :
    reconstruct (blockBytes b ++ f) = b.data ++ separator b ++ reconstruct f := by
  obtain ⟨blocks, last, hwf, -, rfl⟩ := hf
  have hcounted := forall_counted_of_all_blockWf hwf
  have hcounted' : ∀ c ∈ b :: blocks ++ [last], Counted c := List.forall_mem_cons.2 ⟨h, hcounted⟩
  have hcons : blockBytes b ++ frameBytes (blocks ++ [last]) = frameBytes (b :: blocks ++ [last]) := by simp [frameBytes]
  rw [hcons, reconstruct_frameBytes hcounted', reconstruct_frameBytes hcounted, joinBlocks_concat,
    joinBlocks_concat]
  simp

/-! ## The scan after the framing -/

theorem shortBlock_eq (d : List Byte) : shortBlock d = blockBytes (blockOf d) := rfl

theorem counted_blockOf {d : List Byte} (h : d.length ≤ 254) : Counted (blockOf d) := by
  have hover := toNat_overhead_blockOf h
  refine ⟨fun hzero => ?_, hover.symm⟩
  rw [hzero] at hover
  exact absurd hover.symm (Nat.succ_ne_zero d.length)

theorem separator_blockOf {d : List Byte} (h : d.length ≤ 253) : separator (blockOf d) = [Config.delim] :=
  separator_of_short fun hfull => by
    have := (overhead_eq_full_iff (counted_blockOf (d := d) (by omega))).1 hfull
    rw [blockOf_data] at this
    omega

theorem separator_blockOf_full {d : List Byte} (h : d.length = 254) : separator (blockOf d) = [] :=
  separator_of_full ((overhead_eq_full_iff (counted_blockOf h.le)).2 h)

theorem reconstruct_shortBlock {d : List Byte} (h : d.length ≤ 254) : reconstruct (shortBlock d ++ [Config.delim]) = d := by
  have := reconstruct_frameBytes (blocks := [blockOf d]) (by simpa using counted_blockOf h)
  simpa [frameBytes, blockBytes_blockOf, joinBlocks] using this

/-- The scan rebuilds what was stuffed, the data of the open block before the rest. -/
theorem reconstruct_stuff (d x : List Byte) (hlen : d.length ≤ 253) (hd : Config.delim ∉ d) :
    reconstruct (stuff d x ++ [Config.delim]) = d ++ x := by
  induction x generalizing d with
  | nil => rw [stuff, reconstruct_shortBlock (by omega), List.append_nil]
  | cons b x ih =>
    have hrest := ih [] (by simp) (by simp)
    have hcanonical := canonicalFrame_stuff [] x (by simp) (by simp)
    rw [stuff]
    split_ifs with hb hopen
    · rw [List.append_assoc, shortBlock_eq, reconstruct_blockBytes_append (counted_blockOf (by omega)) hcanonical, hrest, hb,
        separator_blockOf hlen]
      simp
    · rw [ih (d ++ [b]) (by simp; omega) (by simp [hd, Ne.symm hb])]
      simp
    · have hfull : (d ++ [b]).length = 254 := by simp; omega
      rw [← shortBlock_of_length_eq hfull, List.append_assoc, shortBlock_eq,
        reconstruct_blockBytes_append (counted_blockOf hfull.le) hcanonical, hrest, separator_blockOf_full hfull]
      simp

theorem reconstruct_frameOf (x : List Byte) : reconstruct (frameOf x) = x := by
  rw [← stuff_nil_eq_frameOf, reconstruct_stuff [] x (by simp) (by simp), List.nil_append]

theorem canonicalFrame_frameOf (x : List Byte) : CanonicalFrame (frameOf x) := by
  rw [← stuff_nil_eq_frameOf]
  exact canonicalFrame_stuff [] x (by simp) (by simp)

/-! ## The framing after the scan -/

/-- Non-zero bytes that do not fill the block stay in it. -/
theorem stuff_append (d e x : List Byte) (hlen : (d ++ e).length ≤ 253) (he : Config.delim ∉ e) :
    stuff d (e ++ x) = stuff (d ++ e) x := by
  induction e generalizing d with
  | nil => rw [List.append_nil, List.nil_append]
  | cons b e ih =>
    obtain ⟨hb, he'⟩ := not_or.1 (fun h => he (List.mem_cons.2 h))
    rw [List.append_cons] at hlen ⊢
    have hopen : d.length < 253 := by simp at hlen; omega
    rw [List.cons_append, stuff, if_neg (Ne.symm hb), if_pos hopen, ih _ hlen he']

theorem stuff_data (d : List Byte) (hlen : d.length ≤ 253) (hd : Config.delim ∉ d) : stuff [] d = shortBlock d := by
  have := stuff_append [] d [] (by simpa using hlen) hd
  rwa [List.append_nil, List.nil_append] at this

theorem stuff_data_zero (d x : List Byte) (hlen : d.length ≤ 253) (hd : Config.delim ∉ d) :
    stuff [] (d ++ Config.delim :: x) = shortBlock d ++ stuff [] x := by
  rw [stuff_append [] d _ (by simpa using hlen) hd, List.nil_append, stuff, if_pos rfl]

theorem stuff_data_full (d x : List Byte) (hlen : d.length = 254) (hd : Config.delim ∉ d) :
    stuff [] (d ++ x) = shortBlock d ++ stuff [] x := by
  obtain ⟨e, b, rfl⟩ := List.eq_nil_or_concat' d |>.resolve_left (by rintro rfl; simp at hlen)
  rw [List.length_append, List.length_singleton] at hlen
  obtain ⟨he, hb⟩ : Config.delim ∉ e ∧ Config.delim ≠ b := by simpa using hd
  rw [shortBlock_of_length_eq (by simpa using hlen), List.append_assoc, stuff_append [] e _ (by simp; omega) he,
    List.nil_append, List.singleton_append, stuff, if_neg (Ne.symm hb), if_neg (by omega)]

/-- The data of a Block and its separator are stuffed as that Block. -/
theorem stuff_block (h : blockWf b = true) (x : List Byte) :
    stuff [] (b.data ++ separator b ++ x) = blockBytes b ++ stuff [] x := by
  obtain ⟨hcounted, hdata⟩ := blockWf_iff.1 h
  rw [blockBytes_eq_shortBlock hcounted]
  by_cases hfull : b.overhead = Config.ovhFull
  · rw [separator_of_full hfull, List.append_nil,
      stuff_data_full b.data x ((overhead_eq_full_iff hcounted).1 hfull) hdata]
  · have hlen : b.data.length ≤ 253 := by
      have := length_data_le hcounted
      have := mt (overhead_eq_full_iff hcounted).2 hfull
      omega
    rw [separator_of_short hfull, List.append_assoc, List.singleton_append, stuff_data_zero b.data x hlen hdata]

/-- The framing of what the scan rebuilds from a canonical Frame, Block by Block. -/
theorem stuff_reconstruct_frameBytes (blocks : List Block) {last : Block} (hwf : (blocks ++ [last]).all blockWf = true)
    (hlast : last.overhead ≠ Config.ovhFull) :
    stuff [] (reconstruct (frameBytes (blocks ++ [last]))) ++ [Config.delim] = frameBytes (blocks ++ [last]) := by
  rw [reconstruct_frameBytes (forall_counted_of_all_blockWf hwf), joinBlocks_concat, frameBytes]
  congr 1
  induction blocks with
  | nil =>
    obtain ⟨hcounted, hdata⟩ := blockWf_iff.1 (show blockWf last = true by simpa using hwf)
    have hlen : last.data.length ≤ 253 := by
      have := length_data_le hcounted
      have := mt (overhead_eq_full_iff hcounted).2 hlast
      omega
    simpa [blockBytes_eq_shortBlock hcounted] using stuff_data last.data hlen hdata
  | cons b blocks ih =>
    obtain ⟨hb, hrest⟩ : blockWf b = true ∧ (blocks ++ [last]).all blockWf = true := by simpa using hwf
    rw [List.flatMap_cons, List.append_assoc, stuff_block hb, ih hrest]
    rfl

theorem frameOf_reconstruct (h : CanonicalFrame f) : frameOf (reconstruct f) = f := by
  obtain ⟨blocks, last, hwf, hlast, rfl⟩ := h
  rw [← stuff_nil_eq_frameOf, stuff_reconstruct_frameBytes blocks hwf hlast]

/-! ## The outputs of ENCODE -/

/-- ENCODE's outputs are the Frames of the Extended Messages: an instance without a capacity takes every Payload. -/
theorem exists_encode_output_iff :
    (∃ s t : State, s.phase = .idle ∧ exec .encode s = .next t ∧ bytesOf t .out = f) ↔
      ∃ p : List Byte, f = frameOf (extendedMessage p) := by
  constructor
  · rintro ⟨s, t, -, hexec, rfl⟩
    obtain ⟨-, -, rfl⟩ := exec_encode_next hexec
    exact ⟨bytesOf s .input, bytesOf_out_encodeRun s⟩
  · rintro ⟨p, rfl⟩
    refine ⟨{ State.reset with inp := Buffer.ofBytes p }, _, rfl, exec_encode_of_idle rfl rfl, ?_⟩
    rw [bytesOf_out_encodeRun]
    exact congrArg (fun x => frameOf (extendedMessage x)) (Buffer.firstBytes_ofBytes .input p)

/-- A sequence is an Extended Message exactly when its last byte is the fold of the rest. -/
theorem exists_eq_extendedMessage_iff :
    (∃ p, x = extendedMessage p) ↔ x.getLast? = some (xorFold x.dropLast) := by
  constructor
  · rintro ⟨p, rfl⟩
    simp [extendedMessage]
  · intro h
    refine ⟨x.dropLast, ?_⟩
    exact (List.dropLast_append_getLast? _ h).symm

theorem reconstruct_empty_block : reconstruct [0x01#8, 0x00#8] = [] := rfl

/-- Settles O52: framing and the scan are inverse to each other on the canonical Frames, and what distinguishes the outputs of
ENCODE among them is that the sequence is an Extended Message. -/
theorem framingIsABijectionOntoCanonicalFrames : Obligations.FramingIsABijectionOntoCanonicalFrames := by
  refine ⟨fun x => ⟨canonicalFrame_frameOf x, reconstruct_frameOf x⟩, fun f => frameOf_reconstruct, fun f => ?_⟩
  rw [exists_encode_output_iff, ← exists_eq_extendedMessage_iff]
  constructor
  · rintro ⟨p, rfl⟩
    refine ⟨canonicalFrame_frameOf _, fun h => ?_, p, reconstruct_frameOf _⟩
    have hempty := reconstruct_frameOf (extendedMessage p)
    rw [h, reconstruct_empty_block] at hempty
    exact absurd hempty (by simp [extendedMessage])
  · rintro ⟨hcanonical, -, p, hp⟩
    exact ⟨p, by rw [← hp, frameOf_reconstruct hcanonical]⟩

end Sys2Proof.Machine
end

section
/-! PROOFS. DECODE of what ENCODE made: the round trip (rules R176, R177), and what DECODE does with one byte changed, the last
Overhead byte raised or the Delimiter missing (rules R115, R178). -/

namespace Sys2Proof.Machine

open Sys2Proof

variable {s t u : State} {b : Block} {blocks : List Block} {f : List Byte}

/-! ## Where the scan of whole blocks ends -/

/-- The scan goes on at an Overhead position, with index `i`. -/
structure ScanRegs.AtOverhead (r : ScanRegs) (i : Nat) : Prop where
  term : r.term = false
  cnt : r.cnt = 0x00
  fi : r.fi = i

theorem atOverhead_initialRegs : initialRegs.AtOverhead 0 := ⟨rfl, rfl, rfl⟩

/-- As many bytes as `CNT` says are copied, and the scan is at an Overhead position again. -/
theorem scanBytes_counted (d f : List Byte) (r : ScanRegs) (hterm : r.term = false) (hcnt : r.cnt.toNat = d.length) :
    ∃ r', scanBytes (d ++ f) r = scanBytes f r' ∧ r'.AtOverhead (r.fi + d.length) := by
  induction d generalizing r with
  | nil => exact ⟨r, rfl, hterm, BitVec.eq_of_toNat_eq hcnt, rfl⟩
  | cons c d ih =>
    rw [List.length_cons] at hcnt
    have hne : r.cnt ≠ 0x00 := fun h => by simp [h] at hcnt
    have hbyte := scanByte_data (b := c) hne
    have hcount : (scanByte c r).cnt.toNat = d.length := by
      rw [hbyte]
      bv_omega
    obtain ⟨r', hscan, hat⟩ := ih (scanByte c r) (by rw [hbyte]; exact hterm) hcount
    refine ⟨r', by rw [List.cons_append, scanBytes, hterm]; exact hscan, ?_⟩
    rw [scanByte_fi] at hat
    rwa [List.length_cons, Nat.add_comm d.length, ← Nat.add_assoc]

theorem scanBytes_blockBytes (h : Counted b) (f : List Byte) {r : ScanRegs} {i : Nat} (hat : r.AtOverhead i) :
    ∃ r', scanBytes (blockBytes b ++ f) r = scanBytes f r' ∧ r'.AtOverhead (i + (blockBytes b).length) := by
  have hopen := scanByte_overhead hat.cnt h.1
  have hcount : (scanByte b.overhead r).cnt.toNat = b.data.length := by
    rw [hopen]
    exact (dataCount_toNat h.1).trans (by have := h.2; omega)
  obtain ⟨r', hscan, hat'⟩ := scanBytes_counted b.data f (scanByte b.overhead r) (by rw [hopen]; exact hat.term) hcount
  refine ⟨r', by rw [blockBytes, List.cons_append, scanBytes, hat.term]; exact hscan, ?_⟩
  rw [scanByte_fi, hat.fi] at hat'
  rwa [blockBytes, List.length_cons, Nat.add_comm b.data.length, ← Nat.add_assoc]

theorem scanBytes_flatMap (h : ∀ b ∈ blocks, Counted b) (f : List Byte) {r : ScanRegs} {i : Nat} (hat : r.AtOverhead i) :
    ∃ r', scanBytes (blocks.flatMap blockBytes ++ f) r = scanBytes f r' ∧
      r'.AtOverhead (i + (blocks.flatMap blockBytes).length) := by
  induction blocks generalizing r i with
  | nil => exact ⟨r, rfl, hat⟩
  | cons b blocks ih =>
    obtain ⟨r₁, hfirst, hat₁⟩ := scanBytes_blockBytes (h b (by simp)) (blocks.flatMap blockBytes ++ f) hat
    obtain ⟨r₂, hrest, hat₂⟩ := ih (fun c hc => h c (by simp [hc])) hat₁
    refine ⟨r₂, by rw [List.flatMap_cons, List.append_assoc, hfirst, hrest], ?_⟩
    rwa [List.flatMap_cons, List.length_append, ← Nat.add_assoc]

/-- The scan of a Frame consumes all of it and ends at the Delimiter. -/
theorem scanned_frameBytes (h : ∀ b ∈ blocks, Counted b) :
    (scanned (frameBytes blocks)).term = true ∧ (scanned (frameBytes blocks)).fi = (frameBytes blocks).length ∧
      (scanned (frameBytes blocks)).cnt = 0x00 := by
  obtain ⟨r, hscan, hat⟩ := scanBytes_flatMap h [Config.delim] atOverhead_initialRegs
  have hend : scanned (frameBytes blocks) = { r with fi := r.fi + 1, term := true } := by
    rw [← scanByte_delim hat.cnt, scanned, frameBytes, hscan, scanBytes, hat.term]; rfl
  rw [hend]
  refine ⟨rfl, ?_, hat.cnt⟩
  simp [hat.fi, frameBytes]

/-- The scan of blocks with no Delimiter after them ends with the input. -/
theorem scanned_flatMap_term (h : ∀ b ∈ blocks, Counted b) : (scanned (blocks.flatMap blockBytes)).term = false := by
  obtain ⟨r, hscan, hat⟩ := scanBytes_flatMap h [] atOverhead_initialRegs
  rw [List.append_nil] at hscan
  rw [scanned, hscan]
  exact hat.term

/-! ## The round trip -/

theorem xorFold_extendedMessage (p : List Byte) : xorFold (extendedMessage p) = 0x00#8 := xorFold_append_self p

theorem dropLast_extendedMessage (p : List Byte) : (extendedMessage p).dropLast = p := List.dropLast_concat

theorem accepts_extendedMessage (p : List Byte) : accepts (extendedMessage p) = true :=
  accepts_iff.2 ⟨by simp [extendedMessage], xorFold_extendedMessage p⟩

/-- Settles O50: the Frame is read as the Blocks it was made of, so the scan rebuilds the Extended Message, which is accepted. -/
theorem decodeInvertsEncode : Obligations.DecodeInvertsEncode := by
  intro s u t _ hexec huphase hufits hinput
  obtain ⟨-, -, rfl⟩ := exec_encode_next hexec
  rw [bytesOf_out_encodeRun] at hinput
  obtain ⟨blocks, last, hwf, -, hframe⟩ := canonicalFrame_frameOf (extendedMessage (bytesOf s .input))
  obtain ⟨hterm, hfi, hcnt⟩ := scanned_frameBytes (forall_counted_of_all_blockWf hwf)
  rw [← hframe, ← hinput] at hterm hfi hcnt
  have hrebuilt : reconstruct (bytesOf u .input) = extendedMessage (bytesOf s .input) := by
    rw [hinput, reconstruct_frameOf]
  have haccepts : accepts (reconstruct (bytesOf u .input)) = true := by rw [hrebuilt]; exact accepts_extendedMessage _
  have hstore : bytesOf (decodeRun u) .store = bytesOf s .input := by
    rw [bytesOf_store_decodeRun haccepts, hrebuilt, dropLast_extendedMessage]
  refine ⟨decodeRun u, exec_decode_of_idle huphase hufits, (decodeRun_ok u).trans haccepts, hstore, ?_,
    (decodeRun_term u).trans hterm, ?_, (decodeRun_cnt u).trans hcnt, ?_⟩
  · rw [← buf_store, ← bytesOf_length, hstore, bytesOf_length, buf_input]
  · rw [decodeRun_fi, hfi, bytesOf_length, buf_input]
  · rw [bytesOf_rb_decodeRun, hrebuilt]; rfl

/-- Settles O51: the Extended Message of the empty Payload is one 0x00, framed as two empty Blocks. -/
theorem emptyPayloadRoundTrips : Obligations.EmptyPayloadRoundTrips := by
  constructor
  · intro s hphase hfits hlen
    have hempty : bytesOf s .input = [] := List.length_eq_zero_iff.1 (by simpa using hlen)
    have hout : bytesOf (encodeRun s) .out = [0x01#8, 0x01#8, 0x00#8] := by rw [bytesOf_out_encodeRun, hempty]; rfl
    refine ⟨encodeRun s, exec_encode_of_idle hphase hfits, hout, ?_⟩
    rw [← buf_out, ← bytesOf_length, hout]; rfl
  · intro s hphase hfits hinput
    have hrebuilt : reconstruct (bytesOf s .input) = [0x00#8] := by rw [hinput]; rfl
    have haccepts : accepts (reconstruct (bytesOf s .input)) = true := by rw [hrebuilt]; rfl
    have hstore : bytesOf (decodeRun s) .store = [] := by rw [bytesOf_store_decodeRun haccepts, hrebuilt]; rfl
    refine ⟨decodeRun s, exec_decode_of_idle hphase hfits, (decodeRun_ok s).trans haccepts,
      (bytesOf_rb_decodeRun s).trans hrebuilt, hstore, ?_⟩
    rw [← buf_store, ← bytesOf_length, hstore]; rfl

/-! ## The Delimiter missing, and a full last Block (rule R178) -/

theorem counted_empty_block : Counted ⟨0x01, []⟩ := ⟨by decide, rfl⟩

/-- Settles O55: without the Delimiter the same Blocks are read and the scan ends with the input; and an empty Block after a full
one adds no byte. -/
theorem decodeAcceptsMoreThanEncodeProduces : Obligations.DecodeAcceptsMoreThanEncodeProduces := by
  constructor
  · intro s t u _ hexec huphase hufits hinput
    obtain ⟨-, -, rfl⟩ := exec_encode_next hexec
    obtain ⟨blocks, last, hwf, -, hframe⟩ := canonicalFrame_frameOf (extendedMessage (bytesOf s .input))
    have hcounted := forall_counted_of_all_blockWf hwf
    rw [bytesOf_out_encodeRun, hframe, frameBytes, List.dropLast_concat] at hinput
    have hrebuilt : reconstruct (bytesOf u .input) = extendedMessage (bytesOf s .input) := by
      rw [hinput, reconstruct_flatMap hcounted, ← reconstruct_frameBytes hcounted, ← hframe, reconstruct_frameOf]
    have haccepts : accepts (reconstruct (bytesOf u .input)) = true := by rw [hrebuilt]; exact accepts_extendedMessage _
    refine ⟨decodeRun u, exec_decode_of_idle huphase hufits, (decodeRun_ok u).trans haccepts, ?_, ?_⟩
    · rw [decodeRun_term, hinput, scanned_flatMap_term hcounted]
    · rw [bytesOf_store_decodeRun haccepts, hrebuilt, dropLast_extendedMessage]
  · intro blocks last hwf hfull
    have hcounted := forall_counted_of_all_blockWf hwf
    have hcounted' : ∀ b ∈ (blocks ++ [last]) ++ [⟨0x01, []⟩], Counted b := by
      intro b hb
      rcases List.mem_append.1 hb with hb | hb
      · exact hcounted b hb
      · rw [List.mem_singleton.1 hb]
        exact counted_empty_block
    have happend : blocks ++ [last, ⟨0x01, []⟩] = (blocks ++ [last]) ++ [⟨0x01, []⟩] := by simp
    rw [happend, reconstruct_frameBytes hcounted, reconstruct_frameBytes hcounted', joinBlocks_concat, joinBlocks_concat]
    simp [separator_of_full hfull]

/-! ## The last Overhead byte raised (rule R115) -/

theorem overhead_ne_full_of_canonicalFrame {last : Block} (hwf : (blocks ++ [last]).all blockWf = true)
    (h : CanonicalFrame (frameBytes (blocks ++ [last]))) : last.overhead ≠ Config.ovhFull := by
  obtain ⟨blocks', last', hwf', hlast', hframe⟩ := h
  have hsame := frameBytes_injective (forall_counted_of_all_blockWf hwf) (forall_counted_of_all_blockWf hwf') hframe
  obtain ⟨-, hlast⟩ := List.append_inj' hsame rfl
  obtain ⟨rfl, -⟩ := List.cons.inj hlast
  exact hlast'

/-- The Block with its Overhead byte raised takes the Delimiter for data. -/
def raised (b : Block) : Block := ⟨b.overhead + 1, b.data ++ [Config.delim]⟩

theorem counted_raised (h : Counted b) (hfull : b.overhead ≠ Config.ovhFull) : Counted (raised b) := by
  obtain ⟨hzero, hcount⟩ := h
  have hover : (b.overhead + 1).toNat = b.overhead.toNat + 1 := by
    unfold Config.ovhFull at hfull
    bv_omega
  refine ⟨fun h => ?_, ?_⟩
  · rw [show b.overhead + 1 = Config.delim from h] at hover
    exact absurd hover.symm (Nat.succ_ne_zero _)
  · rw [raised, List.length_append, hover, ← hcount]; rfl

theorem frameBytes_raised (blocks : List Block) (b : Block) :
    frameBytes (blocks ++ [⟨b.overhead + 1, b.data⟩]) = (blocks ++ [raised b]).flatMap blockBytes := by
  simp [frameBytes, blockBytes, raised]

theorem joinBlocks_raised (blocks : List Block) (b : Block) :
    joinBlocks (blocks ++ [raised b]) = joinBlocks (blocks ++ [b]) ++ [Config.delim] := by
  rw [joinBlocks_concat, joinBlocks_concat, List.append_assoc]; rfl

/-- Settles O54: the raised Block swallows the Delimiter, so the scan ends with the input and the 0x00 stands after the Extended
Message, where it does not change the fold. -/
theorem raisedLastOverheadIsAccepted : Obligations.RaisedLastOverheadIsAccepted := by
  intro s t u blocks last _ hexec hwf hout huphase hufits hinput
  obtain ⟨-, -, rfl⟩ := exec_encode_next hexec
  have hcounted := forall_counted_of_all_blockWf hwf
  have hlast : last.overhead ≠ Config.ovhFull :=
    overhead_ne_full_of_canonicalFrame hwf (hout ▸ canonicalFrame_encodeRun s)
  have hcounted' : ∀ b ∈ blocks ++ [raised last], Counted b := by
    intro b hb
    rcases List.mem_append.1 hb with hb | hb
    · exact hcounted b (List.mem_append_left _ hb)
    · rw [List.mem_singleton.1 hb]
      exact counted_raised (hcounted last (by simp)) hlast
  rw [frameBytes_raised] at hinput
  have hrebuilt : reconstruct (bytesOf u .input) = extendedMessage (bytesOf s .input) ++ [0x00#8] := by
    rw [hinput, reconstruct_flatMap hcounted', joinBlocks_raised, ← reconstruct_frameBytes hcounted, ← hout,
      bytesOf_out_encodeRun, reconstruct_frameOf]
    rfl
  have haccepts : accepts (reconstruct (bytesOf u .input)) = true := by
    rw [hrebuilt, accepts_iff, xorFold_concat, xorFold_extendedMessage]
    exact ⟨by simp, rfl⟩
  refine ⟨decodeRun u, exec_decode_of_idle huphase hufits, (decodeRun_ok u).trans haccepts, ?_, ?_⟩
  · rw [decodeRun_term, hinput, scanned_flatMap_term hcounted']
  · rw [bytesOf_store_decodeRun haccepts, hrebuilt, List.dropLast_concat]; rfl

/-! ## One data byte changed (rule R115) -/

theorem lt_length_of_isDataPosition (n : Nat) (f : List Byte) (j : Nat) (h : isDataPosition n f j = true) : j < f.length := by
  induction n generalizing f j with
  | zero => cases h
  | succ n ih =>
    cases f with
    | nil => cases h
    | cons l f =>
      rw [isDataPosition] at h
      split_ifs at h with hl hj hdata
      · rw [List.length_cons, Nat.lt_succ_iff]
        exact of_decide_eq_true h
      · have := ih _ _ h
        rw [List.length_drop] at this
        rw [List.length_cons]
        omega

/-- The byte at a data position stands at one fixed place of the reconstruction, and no other byte of it depends on it: the
Overhead bytes alone choose the blocks, by induction on their number. -/
theorem exists_joinAfter_set (n : Nat) (f : List Byte) (j : Nat) (h : isDataPosition n f j = true) (short : Bool) :
    ∃ p q, ∀ v, joinAfter short (parseBlocks n (f.set j v)) = p ++ v :: q := by
  induction n generalizing f j short with
  | zero => cases h
  | succ n ih =>
    cases f with
    | nil => cases h
    | cons l f =>
      rw [isDataPosition] at h
      split_ifs at h with hl hj hdata
      · obtain ⟨j, rfl⟩ := Nat.exists_eq_add_one_of_ne_zero hj
        have hlen : j < (f.take (l.toNat - 1)).length := by
          have := of_decide_eq_true h
          rw [List.length_take]
          omega
        refine ⟨(if short then [Config.delim] else []) ++ (f.take (l.toNat - 1)).take j,
          (f.take (l.toNat - 1)).drop (j + 1) ++ joinAfter (!isFull l) (parseBlocks n (f.drop (l.toNat - 1))), fun v => ?_⟩
        have hdrop : (f.set j v).drop (l.toNat - 1) = f.drop (l.toNat - 1) := List.drop_set_of_lt (by omega)
        rw [List.set_cons_succ, parseBlocks_cons n hl, joinAfter_cons, hdrop, List.take_set, List.set_eq_take_append_cons_drop,
          if_pos hlen]
        simp
      · obtain ⟨j, rfl⟩ := Nat.exists_eq_add_one_of_ne_zero hj
        have hindex : j - (l.toNat - 1) = j + 1 - l.toNat := by
          have : l.toNat ≠ 0 := fun h => hl (BitVec.eq_of_toNat_eq h)
          omega
        obtain ⟨p, q, hpq⟩ := ih _ _ h (!isFull l)
        refine ⟨(if short then [Config.delim] else []) ++ f.take (l.toNat - 1) ++ p, q, fun v => ?_⟩
        have hdrop : (f.set j v).drop (l.toNat - 1) = (f.drop (l.toNat - 1)).set (j + 1 - l.toNat) v := by
          rw [List.drop_set, if_neg (by omega), hindex]
        have htake : (f.set j v).take (l.toNat - 1) = f.take (l.toNat - 1) := List.take_set_of_le (by omega)
        rw [List.set_cons_succ, parseBlocks_cons n hl, joinAfter_cons, hdrop, htake, hpq]
        simp

theorem exists_reconstruct_set {j : Nat} (h : isDataPosition f.length f j = true) :
    ∃ p q, ∀ v, reconstruct (f.set j v) = p ++ v :: q := by
  obtain ⟨p, q, hpq⟩ := exists_joinAfter_set f.length f j h false
  refine ⟨p, q, fun v => ?_⟩
  rw [reconstruct, List.length_set, ← joinAfter_false, hpq]

/-- Two sequences that differ in one byte have different folds. -/
theorem eq_of_xorFold_eq {p q : List Byte} {v w : Byte} (h : xorFold (p ++ v :: q) = xorFold (p ++ w :: q)) : v = w := by
  rw [xorFold_perm List.perm_middle, xorFold_perm List.perm_middle, xorFold_cons, xorFold_cons] at h
  exact (BitVec.xor_left_inj _).1 h

/-- Settles O53: the changed byte changes the fold of the reconstruction, which was 0x00. -/
theorem oneChangedDataByteIsDetected : Obligations.OneChangedDataByteIsDetected := by
  intro s t u j v _ hexec hdata hv huphase hufits hinput
  obtain ⟨-, -, rfl⟩ := exec_encode_next hexec
  have hlen : (bytesOf (encodeRun s) .out).length = (encodeRun s).out.len := bytesOf_length _ _
  rw [← hlen] at hdata
  have hj := lt_length_of_isDataPosition _ _ _ hdata
  obtain ⟨p, q, hpq⟩ := exists_reconstruct_set hdata
  have hold : xorFold (p ++ memRead (encodeRun s) .out j :: q) = 0x00#8 := by
    rw [← hpq, ← bytesOf_getElem _ _ hj, List.set_getElem_self, bytesOf_out_encodeRun, reconstruct_frameOf,
      xorFold_extendedMessage]
  have hrejects : accepts (reconstruct (bytesOf u .input)) = false := by
    rw [hinput, hpq, Bool.eq_false_iff, Ne, accepts_iff]
    rintro ⟨-, hnew⟩
    exact hv (eq_of_xorFold_eq (hnew.trans hold.symm))
  exact ⟨decodeRun u, exec_decode_of_idle huphase hufits, (decodeRun_ok u).trans hrejects,
    decodeRun_store_of_rejects hrejects⟩

end Sys2Proof.Machine
end

section
/-! PROOFS. What one step does: the decoded instruction in an operation, the host's next item when idle (rules R43, R126, R150,
R240, R241). -/

namespace Sys2Proof.Machine

open Sys2Proof

variable {s t : State}

/-! ## The step inside an operation -/

/-- A step in an operation is exec of the instruction that the decoder selects. -/
theorem step_of_decoded {i : Instr} {rest : List Byte} (hbusy : s.phase ≠ .idle)
    (h : decode (nextContext s) (nextBytes s) = .ok (i, rest)) : step s = exec i s := by
  simp only [step, busy_eq_true_iff.2 hbusy, if_true, runBusy, runDecoded, h]

theorem decode_next_of_point {p : Point} (h : nextContext s = .point p) :
    decode (nextContext s) (nextBytes s) = .ok (decodePoint p, []) := by
  rw [nextBytes, h]; rfl

theorem step_of_point {p : Point} (hbusy : s.phase ≠ .idle) (h : nextContext s = .point p) :
    step s = exec (decodePoint p) s := step_of_decoded hbusy (decode_next_of_point h)

theorem step_encInit (hphase : s.phase = .encInit) : step s = .next (encInitEffect s) := by
  have hpoint : nextContext s = .point .encInit := by simp [nextContext, hphase]
  exact (step_of_point (by simp [hphase]) hpoint).trans (exec_encInit_of_phase hphase)

/-- A source byte selects the micro-step of its branch in the loop of ENCODE, and that one is enabled (rules R86, R126). -/
theorem exists_decodeSource_enabled (hphase : s.phase = .encScan) (hsi : s.si < xLen s) (hcode : s.code.toNat ≤ 254) :
    ∃ i, decodeSource s.code (xByte s) = .ok i ∧ exec i s = .next (encByte s) := by
  unfold encByte
  split_ifs with hzero hopen
  · exact ⟨.encZero, hzero ▸ decodeSource_zero s.code, exec_encZero_of_enabled hphase hsi hzero⟩
  · exact ⟨.encData (xByte s), decodeSource_open hzero hopen, exec_encData_of_enabled hphase hsi rfl hzero hopen⟩
  · have hfull : s.code.toNat = 254 := by omega
    exact ⟨.encDataFull (xByte s), decodeSource_full hzero hfull, exec_encDataFull_of_enabled hphase hsi rfl hzero hfull⟩

theorem step_encByte (hphase : s.phase = .encScan) (hsi : s.si < xLen s) (hcode : s.code.toNat ≤ 254) :
    step s = .next (encByte s) := by
  obtain ⟨i, hdecode, hexec⟩ := exists_decodeSource_enabled hphase hsi hcode
  have hat : atSourceByte s = true := atSourceByte_iff.2 ⟨hphase, hsi⟩
  rw [← hexec]
  refine step_of_decoded (by simp [hphase]) (rest := []) ?_
  rw [nextBytes_of_atSourceByte hat, nextContext_of_atSourceByte hat]
  exact decode_source_of_ok hdecode []

theorem step_encFin (hphase : s.phase = .encScan) (hsi : s.si = xLen s) : step s = .next (encFinEffect s) := by
  have hpoint : nextContext s = .point .encFin := by simp [nextContext, hphase, hsi]
  exact (step_of_point (by simp [hphase]) hpoint).trans (exec_encFin_of_exhausted hphase hsi)

theorem step_decInit (hphase : s.phase = .decInit) : step s = .next (decInitEffect s) := by
  have hpoint : nextContext s = .point .decInit := by simp [nextContext, hphase]
  exact (step_of_point (by simp [hphase]) hpoint).trans (exec_decInit_next_iff.2 ⟨hphase, rfl⟩)

theorem scanRuns_iff : scanRuns s = true ↔ s.term = false ∧ s.fi < s.inp.len := by simp [scanRuns]

/-- Inside the scan a step is one pass of DECODE's loop. -/
theorem step_decByte (hphase : s.phase = .decScan) (hruns : scanRuns s = true) : step s = .next (decByte s) := by
  obtain ⟨hterm, hfi⟩ := scanRuns_iff.1 hruns
  have hbusy : s.phase ≠ .idle := by simp [hphase]
  by_cases hcnt : s.cnt = 0x00
  · have hat : atOverhead s = true := atOverhead_iff.2 ⟨hphase, hterm, hfi, hcnt⟩
    exact (step_of_decoded hbusy (decode_next_of_atOverhead hat)).trans (exec_decodeOverhead_of_atOverhead hat)
  · have hat : atData s = true := atData_iff.2 ⟨hphase, hterm, hfi, hcnt⟩
    rw [step_of_decoded hbusy (decode_next_of_atData hat), exec_dataCopy_of_atData hat, decByte, if_neg hcnt]

theorem step_decEoi (hphase : s.phase = .decScan) (hterm : s.term = false) (hfi : s.fi = s.inp.len) :
    step s = .next (decEoiEffect s) :=
  (step_of_decoded (by simp [hphase]) (decode_next_of_scanned hphase hterm hfi)).trans
    (exec_decEoi_next_iff.2 ⟨⟨hphase, hterm, hfi⟩, rfl⟩)

theorem scanOver_iff : scanOver s = true ↔ s.phase = .decDone ∨ s.phase = .decScan ∧ s.term = true := by simp [scanOver]

theorem step_decValidate (hover : scanOver s = true) : step s = .next (decValidateEffect s) := by
  have hpoint : nextContext s = .point .decValidate ∧ s.phase ≠ .idle := by
    rcases scanOver_iff.1 hover with hphase | ⟨hphase, hterm⟩
    · simp [nextContext, hphase]
    · simp [nextContext, hphase, hterm]
  exact (step_of_point hpoint.2 hpoint.1).trans (exec_decValidate_next_iff.2 ⟨hover, rfl⟩)

/-! ## The step of an idle instance -/

theorem step_of_idle (hphase : s.phase = .idle) : step s = runIdle s := by simp [step, busy_of_idle hphase]

theorem step_of_no_item (hphase : s.phase = .idle) (hhost : s.host = []) : step s = .next s := by
  simp [step_of_idle hphase, runIdle, hhost]

theorem step_of_reset {tail : List HostEvent} (hphase : s.phase = .idle) (hhost : s.host = .reset :: tail) :
    step s = .next (resetEvent tail s) := by
  simp [step_of_idle hphase, runIdle, hhost]

theorem step_of_issue {op : OpCode} {input : List Byte} {tail : List HostEvent} (hphase : s.phase = .idle)
    (hhost : s.host = .issue op input :: tail) : step s = exec (decodeOp op) (present input tail s) := by
  simp [step_of_idle hphase, runIdle, hhost, runDecoded, decode_opByte]

theorem step_of_issueStepped {op : OpCode} {input : List Byte} {tail : List HostEvent} (hphase : s.phase = .idle)
    (hhost : s.host = .issueStepped op input :: tail) : step s = runStepped op (present input tail s) := by
  simp [step_of_idle hphase, runIdle, hhost]

theorem opCode_cases (op : OpCode) : op = 0b00 ∨ op = 0b01 ∨ op = 0b10 ∨ op = 0b11 := by
  revert op; decide

theorem runStepped_encode (s : State) :
    runStepped 0b01 s = if payloadFits s then .next (beginEncode s) else .refused .capacityExceeded := rfl

theorem runStepped_decode (s : State) :
    runStepped 0b10 s = if frameFits s then .next (beginDecode s) else .refused .capacityExceeded := rfl

/-- CHECKSUM and GETMSG have no micro-step rows and run whole (log entry 23). -/
theorem runStepped_whole {op : OpCode} (h : op = 0b00 ∨ op = 0b11) (s : State) : runStepped op s = exec (decodeOp op) s := by
  rcases h with rfl | rfl <;> rfl

theorem bytesOf_input_present (input : List Byte) (tail : List HostEvent) (s : State) :
    bytesOf (present input tail s) .input = input := Buffer.firstBytes_ofBytes .input input

/-- Settles O7: the two branches of the step, and the host's items one by one. -/
theorem stepRunsTheDecodedInstruction : Obligations.StepRunsTheDecodedInstruction := by
  refine ⟨fun s i rest => step_of_decoded, fun s op input tail hphase hhost => ?_, fun s op input tail hphase hhost hop => ?_,
    fun s => step_of_no_item⟩
  · exact ⟨decode_opByte op, bytesOf_input_present input tail s, rfl, step_of_issue hphase hhost⟩
  · exact (step_of_issueStepped hphase hhost).trans (runStepped_whole hop _)

/-! ## RESET -/

/-- The reset values are in the state after power-on, and the RESET event keeps nothing of the old state but the host's. -/
theorem resetValues_resetEvent (tail : List HostEvent) (s : State) : ResetValues (resetEvent tail s) where
  storeLen := rfl
  outLen := rfl
  rbLen := rfl
  unwritten _ := ⟨rfl, rfl, rfl⟩
  ok := rfl
  res := rfl
  acc := rfl
  code := rfl
  slot := rfl
  wr := rfl
  si := rfl
  fi := rfl
  cnt := rfl
  first := rfl
  prevFull := rfl
  term := rfl

/-- Settles O8: power-on is the RESET event with nothing of the host's. -/
theorem resetGivesTheResetValues : Obligations.ResetGivesTheResetValues :=
  ⟨resetValues_resetEvent [] State.reset, fun s tail hphase hhost =>
    ⟨resetEvent tail s, step_of_reset hphase hhost, resetValues_resetEvent tail s⟩⟩

/-- Settles O9: the event is idle as power-on is, and the host's fields are copied. -/
theorem resetKeepsTheHostsArgument : Obligations.ResetKeepsTheHostsArgument :=
  ⟨fun s tail hphase hhost => ⟨resetEvent tail s, step_of_reset hphase hhost, rfl, rfl, rfl, rfl⟩, rfl, rfl, rfl⟩

/-! ## When a host operation answers (rule R59) -/

/-- An idle instance answers an operation or refuses it for its capacity. -/
theorem exec_op_of_idle (op : OpCode) (hphase : s.phase = .idle) :
    (∃ t, exec (decodeOp op) s = .next t) ∨
      exec (decodeOp op) s = .refused .capacityExceeded ∧ (payloadFits s = false ∨ frameFits s = false) := by
  rcases opCode_cases op with rfl | rfl | rfl | rfl
  · cases hfits : payloadFits s with
    | true => exact .inl ⟨_, exec_checksum_of_idle hphase hfits⟩
    | false => exact .inr ⟨exec_checksum_of_overlong hphase hfits, .inl rfl⟩
  · cases hfits : payloadFits s with
    | true => exact .inl ⟨_, exec_encode_of_idle hphase hfits⟩
    | false => exact .inr ⟨exec_encode_of_overlong hphase hfits, .inl rfl⟩
  · cases hfits : frameFits s with
    | true => exact .inl ⟨_, exec_decode_of_idle hphase hfits⟩
    | false => exact .inr ⟨exec_decode_of_overlong hphase hfits, .inr rfl⟩
  · exact .inl ⟨_, exec_getmsg_of_idle hphase⟩

theorem exists_exec_op_next (op : OpCode) (hphase : s.phase = .idle) (hpayload : payloadFits s = true)
    (hframe : frameFits s = true) : ∃ t, exec (decodeOp op) s = .next t := by
  rcases exec_op_of_idle op hphase with h | ⟨-, h⟩
  · exact h
  · simp [hpayload, hframe] at h

/-- A host operation ends idle, with the host's fields as they were. -/
theorem exec_op_frame (op : OpCode) (h : exec (decodeOp op) s = .next t) :
    t.phase = .idle ∧ t.params = s.params ∧ t.host = s.host ∧ t.inp = s.inp := by
  obtain ⟨hphase, ⟨-, -, rfl⟩ | ⟨-, -, rfl⟩ | ⟨-, -, rfl⟩ | ⟨-, rfl⟩⟩ := exec_op_next op h
  · exact ⟨by simpa using hphase, by simp, by simp, by simp⟩
  · exact ⟨encodeRun_phase s, encodeRun_params s, encodeRun_host s, encodeRun_inp s⟩
  · exact ⟨decodeRun_phase s, decodeRun_params s, decodeRun_host s, decodeRun_inp s⟩
  · exact ⟨hphase, rfl, rfl, rfl⟩

/-- Settles O10: an idle instance has no reason to refuse but a capacity. -/
theorem anyOperationMayBeTheFirst : Obligations.AnyOperationMayBeTheFirst := by
  intro s op input tail _ hphase hhost hpayload hframe
  obtain ⟨t, ht⟩ := exists_exec_op_next (s := present input tail s) op hphase hpayload hframe
  exact ⟨t, (step_of_issue hphase hhost).trans ht, (exec_op_frame op ht).1⟩

end Sys2Proof.Machine
end

section
/-! PROOFS. The invariant of the ENCODE scan (rule R44) is kept by its micro-steps, and leaves `OUT` full (rule R34). -/

namespace Sys2Proof.Machine

open Sys2Proof

variable {s : State} {m : Memory} {slot wr : Nat}

/-! ## The bytes of `OUT` during the scan -/

/-- Every position below `WR` but the reserved one holds a written byte that is not 0x00 (rule R44). -/
def WrittenBelow (m : Memory) (slot wr : Nat) : Prop :=
  ∀ i, i < wr → i ≠ slot → ∃ v, Memory.read? m i = some v ∧ v ≠ Config.delim

theorem WrittenBelow.emit (h : WrittenBelow m slot wr) {b : Byte} (hb : b ≠ Config.delim) :
    WrittenBelow (Memory.put m wr b) slot (wr + 1) := by
  intro i hi hslot
  rw [Memory.read?_put]
  split
  case isTrue => exact ⟨b, rfl, hb⟩
  case isFalse hne => exact h i (by omega) hslot

/-- The backpatch fills the reserved position, and the next one is reserved in its place. -/
theorem WrittenBelow.close (h : WrittenBelow m slot wr) {c : Byte} (hc : c ≠ Config.delim) :
    WrittenBelow (Memory.forget (Memory.put m slot c) wr) wr (wr + 1) := by
  intro i hi hwr
  rw [Memory.read?_forget, if_neg hwr, Memory.read?_put]
  split
  case isTrue => exact ⟨c, rfl, hc⟩
  case isFalse hslot => exact h i (by omega) hslot

theorem ne_delim_of_one_le {c : Byte} (h : 1 ≤ c.toNat) : c ≠ Config.delim := by
  rintro rfl
  exact absurd h (by decide)

/-! ## The micro-steps -/

/-- Each full close so far has taken 254 source bytes. -/
theorem EncInv.fullCloses_le (h : EncInv s) : 254 * (s.wr - s.si - 1) + (s.code.toNat - 1) ≤ s.si := by
  rw [Nat.mul_comm]
  exact h.closes

theorem encInv_encInitEffect (hcells : Memory.wf s.out.cells) (hacc : s.acc = xorFold (bytesOf s .input)) :
    EncInv (encInitEffect s) where
  codeLow := Nat.le_refl 1
  codeHigh := (by decide : 1 ≤ 254)
  write := rfl
  scan := Nat.zero_le _
  ahead := Nat.zero_lt_one
  closes := by simp
  checksum := hacc
  cells := Memory.forget_wf hcells 0
  reserved := Buffer.read?_reserve_self s.out 0
  written i hi hslot := absurd (Nat.lt_one_iff.1 hi) hslot

theorem EncInv.encZero (h : EncInv s) (hsi : s.si < xLen s) : EncInv (encZeroEffect s) := by
  have hcloses := h.fullCloses_le
  rw [encZeroEffect_eq]
  refine ⟨Nat.le_refl 1, (by decide : 1 ≤ 254), rfl, hsi, Nat.succ_lt_succ h.ahead, ?_, h.checksum,
    Memory.forget_wf (Memory.put_wf h.cells _ _) _, Buffer.read?_reserve_self _ s.wr,
    WrittenBelow.close h.written (ne_delim_of_one_le h.codeLow)⟩
  change (s.wr + 1 - (s.si + 1) - 1) * 254 + (1 - 1) ≤ s.si + 1
  rw [Nat.mul_comm]
  omega

theorem EncInv.encData (h : EncInv s) (hsi : s.si < xLen s) {b : Byte} (hb : b ≠ Config.delim)
    (hcode : s.code.toNat ≤ 253) : EncInv (encDataEffect b s) := by
  have hcount : (s.code + 1).toNat = s.code.toNat + 1 := by bv_omega
  have hwrite := h.write
  have hlow := h.codeLow
  have hcloses := h.fullCloses_le
  rw [encDataEffect_eq]
  refine ⟨?_, ?_, ?_, hsi, Nat.succ_lt_succ h.ahead, ?_, h.checksum, Memory.put_wf h.cells _ _, ?_,
    WrittenBelow.emit h.written hb⟩
  · change 1 ≤ (s.code + 1).toNat
    omega
  · change (s.code + 1).toNat ≤ 254
    omega
  · change s.wr + 1 = s.slot + (s.code + 1).toNat
    omega
  · change (s.wr + 1 - (s.si + 1) - 1) * 254 + ((s.code + 1).toNat - 1) ≤ s.si + 1
    rw [Nat.mul_comm]
    omega
  · have hne : s.slot ≠ s.wr := by omega
    exact (Memory.read?_put_other s.out.cells b hne).trans h.reserved

theorem EncInv.encDataFull (h : EncInv s) (hsi : s.si < xLen s) {b : Byte} (hb : b ≠ Config.delim)
    (hcode : s.code.toNat = 254) : EncInv (encDataFullEffect b s) := by
  have hfull : s.code + 1 ≠ Config.delim := ne_delim_of_one_le (by bv_omega)
  have hcloses := h.fullCloses_le
  have hahead := h.ahead
  rw [encDataFullEffect_eq]
  refine ⟨Nat.le_refl 1, (by decide : 1 ≤ 254), rfl, hsi, ?_, ?_, h.checksum,
    Memory.forget_wf (Memory.put_wf (Memory.put_wf h.cells _ _) _ _) _, Buffer.read?_reserve_self _ (s.wr + 1),
    (WrittenBelow.emit h.written hb).close hfull⟩
  · change s.si + 1 < s.wr + 1 + 1
    omega
  · change (s.wr + 1 + 1 - (s.si + 1) - 1) * 254 + (1 - 1) ≤ s.si + 1
    rw [Nat.mul_comm]
    omega

/-- One pass of ENCODE's loop keeps the invariant of the scan. -/
theorem EncInv.encByte (h : EncInv s) (hsi : s.si < xLen s) : EncInv (encByte s) := by
  unfold Machine.encByte
  split_ifs with hzero hopen
  · exact h.encZero hsi
  · exact h.encData hsi hzero hopen
  · have := h.codeHigh
    exact h.encDataFull hsi hzero (by omega)

theorem EncInv.encLoop (n : Nat) (h : EncInv s) : EncInv (encLoop n s) := by
  induction n generalizing s with
  | zero => exact h
  | succ n ih =>
    rw [Machine.encLoop]
    split
    case isTrue hsi => exact ih (h.encByte hsi)
    case isFalse => exact h

/-- ENC.FIN fills the reserved position and the one at `WR`, and cuts off what lies beyond (rule R125). -/
theorem EncInv.out_full_encFin (h : EncInv s) : (encFinEffect s).out.full := by
  refine Buffer.full_of_wf (Memory.truncate_wf (Memory.put_wf (Memory.put_wf h.cells _ _) _ _) _) fun i => ?_
  rw [Memory.mem_fst_iff, encFinEffect_out, Buffer.setLen_len]
  simp only [Buffer.setLen, Buffer.write, Memory.read?_truncate, Memory.read?_put]
  split_ifs with hi hwr hslot
  · simp [hi]
  · simp [hi]
  · obtain ⟨v, hv, -⟩ := h.written i (by omega) hslot
    simp [hi, hv]
  · simp [hi]

theorem out_full_encodeRun (hout : s.out.full) : (encodeRun s).out.full := by
  have hbegin : Memory.wf (beginEncode s).out.cells := by
    rw [beginEncode_eq]
    exact Buffer.full_wf hout
  have hacc : (beginEncode s).acc = xorFold (bytesOf (beginEncode s) .input) := by
    rw [beginEncode_eq]; rfl
  exact ((encInv_encInitEffect hbegin hacc).encLoop (xLen s)).out_full_encFin

end Sys2Proof.Machine
end

section
/-! PROOFS. The invariant of the DECODE scan (rules R45, R172) is kept by its micro-steps, and bounds `RB` (rule R172). -/

namespace Sys2Proof.Machine

open Sys2Proof

variable {s : State}

/-! ## The micro-steps -/

theorem decInv_decInitEffect (s : State) : DecInv (decInitEffect s) where
  count := Nat.zero_le _
  length := Nat.zero_le _
  scan := Nat.zero_le _
  firstClear _ := ⟨rfl, rfl⟩
  firstAtStart _ := rfl
  firstOnly _ _ := rfl
  stopped h := nomatch h

theorem DecInv.ovhEnd (h : DecInv s) (hfi : s.fi < s.inp.len) (hcnt : s.cnt = 0x00) : DecInv (ovhEndEffect s) where
  count := h.count
  length := h.length.trans (Nat.sub_le_sub_right (Nat.le_succ s.fi) 1)
  scan := hfi
  firstClear := h.firstClear
  firstAtStart hzero := absurd hzero (Nat.succ_ne_zero s.fi)
  firstOnly _ hterm := nomatch hterm
  stopped _ := hcnt

/-- A block has been opened before as soon as a byte of the frame has been consumed. -/
theorem DecInv.fi_pos (h : DecInv s) (hfirst : s.first = false) : 0 < s.fi :=
  Nat.pos_of_ne_zero fun hzero => by simp [h.firstAtStart hzero] at hfirst

theorem DecInv.openFrameBlock (h : DecInv s) (hfi : s.fi < s.inp.len) (hterm : s.term = false) {l : Byte}
    (hl : l ≠ Config.delim) : DecInv (openFrameBlock l s) := by
  rw [openFrameBlock_eq]
  refine ⟨?_, ?_, hfi, nofun, fun hzero => absurd hzero (Nat.succ_ne_zero s.fi), nofun, fun hstop => ?_⟩
  · change (dataCount l).toNat ≤ 254
    have := l.isLt
    rw [dataCount_toNat hl]
    omega
  · have hlen := h.length
    change (if restores s then s.rb.append Config.delim else s.rb).len ≤ s.fi + 1 - 1
    split_ifs with hrestores
    · have := h.fi_pos (restores_iff.1 hrestores).1
      rw [Buffer.append_len]
      omega
    · omega
  · simp [hterm] at hstop

theorem DecInv.dataCopy (h : DecInv s) (hfi : s.fi < s.inp.len) (hterm : s.term = false) (hcnt : s.cnt ≠ 0x00) (b : Byte) :
    DecInv (dataCopyEffect b s) := by
  have hfirst : s.first = false := Bool.eq_false_iff.2 fun hfirst => hcnt (h.firstClear hfirst).2
  have hpos := h.fi_pos hfirst
  have hlen := h.length
  have hcount := h.count
  refine ⟨?_, ?_, hfi, fun hf => ?_, fun hzero => absurd hzero (Nat.succ_ne_zero s.fi), fun hf => ?_, fun hstop => ?_⟩
  · change (s.cnt - 1).toNat ≤ 254
    bv_omega
  · change s.rb.len + 1 ≤ s.fi + 1 - 1
    omega
  · rw [dataCopyEffect_first, hfirst] at hf; cases hf
  · rw [dataCopyEffect_first, hfirst] at hf; cases hf
  · rw [dataCopyEffect_term, hterm] at hstop; cases hstop

/-- One pass of DECODE's loop keeps the invariant of the scan. -/
theorem DecInv.decByte (h : DecInv s) (hruns : scanRuns s = true) : DecInv (decByte s) := by
  obtain ⟨hterm, hfi⟩ := scanRuns_iff.1 hruns
  unfold Machine.decByte
  split_ifs with hcnt hzero hfull
  · exact h.ovhEnd hfi hcnt
  · exact h.openFrameBlock hfi hterm (l := Config.ovhFull) (by decide)
  · exact h.openFrameBlock hfi hterm hzero
  · exact h.dataCopy hfi hterm hcnt _

theorem DecInv.decEoi (h : DecInv s) : DecInv (decEoiEffect s) :=
  ⟨h.count, h.length, h.scan, h.firstClear, h.firstAtStart, h.firstOnly, h.stopped⟩

theorem rb_full_openFrameBlock (h : s.rb.full) (l : Byte) : (openFrameBlock l s).rb.full := by
  rw [openFrameBlock_rb]
  split
  · exact Buffer.append_full h _
  · exact h

/-- `RB` is only appended to. -/
theorem rb_full_decByte (h : s.rb.full) : (decByte s).rb.full := by
  unfold decByte ovhFullEffect ovhBlkEffect
  split_ifs
  · exact h
  · exact rb_full_openFrameBlock h _
  · exact rb_full_openFrameBlock h _
  · exact Buffer.append_full h _

/-- What every pass of DECODE's loop keeps, the loop keeps. -/
theorem decLoop_induction {P : State → Prop} (hbyte : ∀ s, scanRuns s = true → P s → P (decByte s)) (n : Nat) (h : P s) :
    P (decLoop n s) := by
  induction n generalizing s with
  | zero => exact h
  | succ n ih =>
    rw [decLoop]
    split
    case isTrue hruns => exact ih (hbyte s hruns h)
    case isFalse => exact h

theorem DecInv.decLoop (n : Nat) (h : DecInv s) : DecInv (decLoop n s) :=
  decLoop_induction (fun _ hruns hs => hs.decByte hruns) n h

theorem decInv_decodeScanned (s : State) : DecInv (decodeScanned s) := by
  have hloop := (decInv_decInitEffect (beginDecode s)).decLoop s.inp.len
  unfold decodeScanned endScan
  split
  · exact hloop
  · exact hloop.decEoi

theorem rb_full_decodeRun (s : State) : (decodeRun s).rb.full := by
  have hloop : (decLoop s.inp.len (decInitEffect (beginDecode s))).rb.full :=
    decLoop_induction (P := fun s => s.rb.full) (fun _ _ => rb_full_decByte) _ Buffer.empty_full
  rw [decodeRun_eq_validate, decValidateEffect_rb, decodeScanned, endScan]
  split <;> exact hloop

theorem store_full_decValidateEffect (h : s.store.full) : (decValidateEffect s).store.full := by
  rw [decValidateEffect_store]
  split
  · exact Buffer.ofBytes_full _
  · exact h

theorem store_full_decodeRun (h : s.store.full) : (decodeRun s).store.full := by
  rw [decodeRun_eq]
  exact store_full_decValidateEffect (s := withScanRegs _ s) h

/-! ## The size of the reconstruction -/

theorem scanRegs_decodeScanned (s : State) : scanRegs (decodeScanned s) = scanRegs (decodeRun s) := by
  rw [decodeRun_eq_validate, decValidateEffect_frame]; rfl

theorem decodeScanned_inp (s : State) : (decodeScanned s).inp = s.inp := by rw [decodeScanned_eq]; rfl

theorem rb_len_decodeRun_le_fi (s : State) : (decodeRun s).rb.len ≤ (decodeRun s).fi - 1 := by
  have hrb : (decodeScanned s).rb = (decodeRun s).rb := congrArg ScanRegs.rb (scanRegs_decodeScanned s)
  have hfi : (decodeScanned s).fi = (decodeRun s).fi := congrArg ScanRegs.fi (scanRegs_decodeScanned s)
  rw [← hrb, ← hfi]
  exact (decInv_decodeScanned s).length

theorem fi_decodeRun_le (s : State) : (decodeRun s).fi ≤ s.inp.len := by
  have hfi : (decodeScanned s).fi = (decodeRun s).fi := congrArg ScanRegs.fi (scanRegs_decodeScanned s)
  rw [← hfi, ← decodeScanned_inp]
  exact (decInv_decodeScanned s).scan

theorem rb_len_decodeRun_le (s : State) : (decodeRun s).rb.len ≤ s.inp.len - 1 :=
  (rb_len_decodeRun_le_fi s).trans (Nat.sub_le_sub_right (fi_decodeRun_le s) 1)

/-- Empty blocks are joined to as many 0x00 bytes as there are blocks after the first. -/
theorem length_reconstruct_replicate (n : Nat) : (reconstruct (List.replicate (n + 1) 0x01)).length = n := by
  have hbytes : List.replicate (n + 1) 0x01 = (List.replicate (n + 1) ⟨0x01, []⟩).flatMap blockBytes := by
    simp [List.flatMap_replicate, blockBytes]
  have hcounted : ∀ b ∈ List.replicate (n + 1) (⟨0x01, []⟩ : Block), Counted b :=
    fun b hb => by rw [List.eq_of_mem_replicate hb]; exact counted_empty_block
  rw [hbytes, reconstruct_flatMap hcounted, List.replicate_succ', joinBlocks_concat]
  simp [separator, Config.ovhFull]

/-- Settles O35: the bounds are the scan's invariant, and empty Blocks reach them. -/
theorem reconstructionIsShorterThanTheInput : Obligations.ReconstructionIsShorterThanTheInput := by
  refine ⟨fun s hphase hfits => ?_, fun s n hphase hfits hinput => ?_⟩
  · refine ⟨decodeRun s, exec_decode_of_idle hphase hfits, (rb_len_decodeRun_le s).trans (le_max_left _ _),
      fun _ => rb_len_decodeRun_le_fi s, fun hok => ?_⟩
    rw [decodeRun_ok] at hok
    have hstore := store_len_decodeRun hok
    have hrb := rb_len_decodeRun_le s
    omega
  · refine ⟨decodeRun s, exec_decode_of_idle hphase hfits, ?_⟩
    rw [rb_len_decodeRun, hinput]
    exact length_reconstruct_replicate n

end Sys2Proof.Machine
end

section
/-! PROOFS. Every step keeps the invariant of the instance (rules R34, R44, R45, R50) and the derived capacities (rule R172), and under
the invariant a step is refused for a capacity alone (rule R59). -/

namespace Sys2Proof.Machine

open Sys2Proof

variable {s t : State}

/-! ## The invariant, place by place -/

/-- What the invariant asks of the buffers in every place but the scan of ENCODE. -/
structure BuffersFull (s : State) : Prop where
  inp : s.inp.full
  rb : s.rb.full
  store : s.store.full
  out : s.out.full

theorem State.Inv.buffersFull (h : s.Inv) (hphase : s.phase ≠ .encScan) : BuffersFull s :=
  ⟨h.inpFull, h.rbFull, h.storeFull, h.outFull hphase⟩

theorem inv_of_idle (hphase : s.phase = .idle) (h : BuffersFull s) : s.Inv :=
  ⟨h.inp, h.rb, h.store, fun _ => h.out, by simp [hphase], by simp [hphase], by simp [hphase], by simp [hphase]⟩

theorem inv_of_encInit (hphase : s.phase = .encInit) (h : BuffersFull s) (hacc : s.acc = xorFold (bytesOf s .input)) : s.Inv :=
  ⟨h.inp, h.rb, h.store, fun _ => h.out, fun _ => hacc, by simp [hphase], by simp [hphase], by simp [hphase]⟩

theorem inv_of_encScan (hphase : s.phase = .encScan) (hinp : s.inp.full) (hrb : s.rb.full) (hstore : s.store.full)
    (henc : EncInv s) : s.Inv :=
  ⟨hinp, hrb, hstore, fun h => absurd hphase h, by simp [hphase], fun _ => henc, by simp [hphase], by simp [hphase]⟩

theorem inv_of_decInit (hphase : s.phase = .decInit) (h : BuffersFull s) : s.Inv :=
  ⟨h.inp, h.rb, h.store, fun _ => h.out, by simp [hphase], by simp [hphase], by simp [hphase], by simp [hphase]⟩

theorem inv_of_decScan (hphase : s.phase = .decScan) (h : BuffersFull s) (hdec : DecInv s) : s.Inv :=
  ⟨h.inp, h.rb, h.store, fun _ => h.out, by simp [hphase], by simp [hphase], fun _ => hdec, by simp [hphase]⟩

theorem inv_of_decDone (hphase : s.phase = .decDone) (h : BuffersFull s) (hdec : DecInv s) (hfi : s.fi = s.inp.len)
    (hterm : s.term = false) : s.Inv :=
  ⟨h.inp, h.rb, h.store, fun _ => h.out, by simp [hphase], by simp [hphase], by simp [hphase], fun _ => ⟨hdec, hfi, hterm⟩⟩

/-! ## The steps keep the invariant -/

theorem encByte_inp (s : State) : (encByte s).inp = s.inp := by rw [encByte_frame]
theorem encByte_params (s : State) : (encByte s).params = s.params := by rw [encByte_frame]
theorem encByte_phase (s : State) : (encByte s).phase = s.phase := by rw [encByte_frame]
theorem encByte_rb (s : State) : (encByte s).rb = s.rb := by rw [encByte_frame]
theorem encByte_store (s : State) : (encByte s).store = s.store := by rw [encByte_frame]

theorem decByte_inp (s : State) : (decByte s).inp = s.inp := by rw [decByte_eq]; rfl
theorem decByte_params (s : State) : (decByte s).params = s.params := by rw [decByte_eq]; rfl
theorem decByte_phase (s : State) : (decByte s).phase = s.phase := by rw [decByte_eq]; rfl
theorem decByte_out (s : State) : (decByte s).out = s.out := by rw [decByte_eq]; rfl
theorem decByte_store (s : State) : (decByte s).store = s.store := by rw [decByte_eq]; rfl

theorem decValidateEffect_out (s : State) : (decValidateEffect s).out = s.out := by rw [decValidateEffect_frame]
theorem decValidateEffect_params (s : State) : (decValidateEffect s).params = s.params := by rw [decValidateEffect_frame]
theorem decValidateEffect_phase (s : State) : (decValidateEffect s).phase = .idle := by rw [decValidateEffect_frame]

theorem BuffersFull.decByte (h : BuffersFull s) : BuffersFull (decByte s) :=
  ⟨by rw [decByte_inp]; exact h.inp, rb_full_decByte h.rb, by rw [decByte_store]; exact h.store,
    by rw [decByte_out]; exact h.out⟩

theorem BuffersFull.decValidate (h : BuffersFull s) : BuffersFull (decValidateEffect s) :=
  ⟨by rw [decValidateEffect_inp]; exact h.inp, by rw [decValidateEffect_rb]; exact h.rb, store_full_decValidateEffect h.store,
    by rw [decValidateEffect_out]; exact h.out⟩

/-- A step inside an operation keeps the invariant. -/
theorem inv_of_busy_step (hinv : s.Inv) (hbusy : s.phase ≠ .idle) (h : step s = .next t) : t.Inv := by
  rcases step_busy_next hbusy h with ⟨hphase, rfl⟩ | ⟨hphase, hsi, -, rfl⟩ | ⟨hphase, -, rfl⟩ | ⟨hphase, rfl⟩ |
    ⟨hphase, hruns, rfl⟩ | ⟨hphase, hterm, hfi, rfl⟩ | ⟨hover, rfl⟩
  · have hfull := hinv.buffersFull (by simp [hphase])
    exact inv_of_encScan rfl hfull.inp hfull.rb hfull.store
      (encInv_encInitEffect (Buffer.full_wf hfull.out) (hinv.encReady hphase))
  · refine inv_of_encScan ((encByte_phase s).trans hphase) ?_ ?_ ?_ ((hinv.encoding hphase).encByte hsi)
    · rw [encByte_inp]; exact hinv.inpFull
    · rw [encByte_rb]; exact hinv.rbFull
    · rw [encByte_store]; exact hinv.storeFull
  · exact inv_of_idle rfl ⟨hinv.inpFull, hinv.rbFull, hinv.storeFull, (hinv.encoding hphase).out_full_encFin⟩
  · have hfull := hinv.buffersFull (by simp [hphase])
    exact inv_of_decScan rfl ⟨hfull.inp, Buffer.empty_full, hfull.store, hfull.out⟩ (decInv_decInitEffect s)
  · exact inv_of_decScan ((decByte_phase s).trans hphase) (hinv.buffersFull (by simp [hphase])).decByte
      ((hinv.decoding hphase).decByte hruns)
  · have hfull := hinv.buffersFull (by simp [hphase])
    exact inv_of_decDone rfl ⟨hfull.inp, hfull.rb, hfull.store, hfull.out⟩ (hinv.decoding hphase).decEoi hfi hterm
  · have hphase : s.phase ≠ .encScan := by rcases scanOver_iff.1 hover with hp | ⟨hp, -⟩ <;> simp [hp]
    exact inv_of_idle (decValidateEffect_phase s) (hinv.buffersFull hphase).decValidate

theorem BuffersFull.present (h : BuffersFull s) (input : List Byte) (tail : List HostEvent) :
    BuffersFull (present input tail s) :=
  ⟨Buffer.ofBytes_full input, h.rb, h.store, h.out⟩

/-- A host operation keeps the buffers full. -/
theorem BuffersFull.exec_op (h : BuffersFull s) (op : OpCode) (hexec : exec (decodeOp op) s = .next t) : BuffersFull t := by
  obtain ⟨-, ⟨-, -, rfl⟩ | ⟨-, -, rfl⟩ | ⟨-, -, rfl⟩ | ⟨-, rfl⟩⟩ := exec_op_next op hexec
  · rw [takeResult_foldBytes_eq]
    exact ⟨h.inp, h.rb, h.store, h.out⟩
  · exact ⟨by rw [encodeRun_inp]; exact h.inp, by rw [encodeRun_rb]; exact h.rb, by rw [encodeRun_store]; exact h.store,
      out_full_encodeRun h.out⟩
  · exact ⟨by rw [decodeRun_inp]; exact h.inp, rb_full_decodeRun s, store_full_decodeRun h.store,
      by rw [decodeRun_out]; exact h.out⟩
  · exact ⟨h.inp, h.rb, h.store, Buffer.ofBytes_full _⟩

/-- A step of an idle instance keeps the invariant. -/
theorem inv_of_idle_step (hinv : s.Inv) (hidle : s.phase = .idle) (h : step s = .next t) : t.Inv := by
  have hfull := hinv.buffersFull (by simp [hidle])
  rcases step_idle_next hidle h with ⟨-, rfl⟩ | ⟨rest, -, rfl⟩ | ⟨op, input, rest, p, rfl, hstep⟩
  · exact hinv
  · exact inv_of_idle rfl ⟨hfull.inp, Buffer.empty_full, Buffer.empty_full, Buffer.empty_full⟩
  · have hpresent := hfull.present input rest
    rcases hstep with ⟨-, hexec⟩ | ⟨-, ⟨-, -, rfl⟩ | ⟨-, -, rfl⟩⟩
    · exact inv_of_idle (exec_op_frame op hexec).1 (hpresent.exec_op op hexec)
    · rw [beginEncode_eq]
      exact inv_of_encInit rfl ⟨hpresent.inp, hpresent.rb, hpresent.store, hpresent.out⟩ rfl
    · exact inv_of_decInit rfl ⟨hpresent.inp, hpresent.rb, hpresent.store, hpresent.out⟩

/-- Settles O45: a step inside an operation keeps its scan's invariant, and a whole operation fills its buffers. -/
theorem stepKeepsTheInvariant : Obligations.StepKeepsTheInvariant := by
  intro s t hinv h
  by_cases hidle : s.phase = .idle
  · exact inv_of_idle_step hinv hidle h
  · exact inv_of_busy_step hinv hidle h

/-- Settles O44: after RESET the buffers are empty and no operation is in progress. -/
theorem resetMeetsTheInvariant : Obligations.ResetMeetsTheInvariant :=
  ⟨inv_of_idle rfl ⟨Buffer.empty_full, Buffer.empty_full, Buffer.empty_full, Buffer.empty_full⟩,
    ⟨fun _ => rfl, fun _ => rfl, fun _ _ => Nat.zero_le _, fun _ _ => Nat.zero_le _⟩⟩

/-! ## The capacities (rule R172) -/

/-- The derived capacities of `RB` and of the Store. -/
structure BuffersBounded (s : State) : Prop where
  rb : ∀ m, s.params.frameInMax = some m → s.rb.len ≤ Config.rbCapacity m
  store : ∀ m, s.params.frameInMax = some m → s.store.len ≤ Config.storeCapacity m

theorem State.WithinCapacity.buffersBounded (h : s.WithinCapacity) : BuffersBounded s := ⟨h.rb, h.store⟩

theorem withinCapacity_of_idle (hphase : s.phase = .idle) (h : BuffersBounded s) : s.WithinCapacity :=
  ⟨by simp [hphase], by simp [hphase], h.rb, h.store⟩

theorem withinCapacity_of_encode (hphase : s.phase = .encInit ∨ s.phase = .encScan) (hfits : payloadFits s = true)
    (h : BuffersBounded s) : s.WithinCapacity :=
  ⟨fun _ => hfits, by rcases hphase with hp | hp <;> simp [hp], h.rb, h.store⟩

theorem withinCapacity_of_decode (hphase : s.phase = .decInit ∨ s.phase = .decScan ∨ s.phase = .decDone)
    (hfits : frameFits s = true) (h : BuffersBounded s) : s.WithinCapacity :=
  ⟨by rcases hphase with hp | hp | hp <;> simp [hp], fun _ => hfits, h.rb, h.store⟩

/-- A reconstruction shorter than an accepted input is within the capacity of `RB`. -/
theorem rb_within_of_shorter (hfits : frameFits s = true) (hlen : t.rb.len ≤ s.inp.len - 1) (m : Nat)
    (hm : s.params.frameInMax = some m) : t.rb.len ≤ Config.rbCapacity m := by
  have : s.inp.len ≤ m := by simpa [frameFits, Config.fits, hm] using hfits
  rw [Config.rbCapacity]
  omega

theorem DecInv.rb_len_le (h : DecInv s) : s.rb.len ≤ s.inp.len - 1 := h.length.trans (Nat.sub_le_sub_right h.scan 1)

/-- The validated message is one byte shorter than `RB`. -/
theorem BuffersBounded.decValidate (h : BuffersBounded s) : BuffersBounded (decValidateEffect s) := by
  constructor
  · rw [decValidateEffect_params, decValidateEffect_rb]
    exact h.rb
  · intro m hm
    rw [decValidateEffect_params] at hm
    have hrb := h.rb m hm
    have hstore := h.store m hm
    rw [decValidateEffect_store]
    rw [Config.rbCapacity] at hrb
    rw [Config.storeCapacity] at hstore ⊢
    split
    · rw [Buffer.ofBytes_len, List.length_dropLast, bytesOf_length, buf_rb]
      omega
    · exact hstore

/-- A step inside an operation stays within the capacities. -/
theorem withinCapacity_of_busy_step (hinv : s.Inv) (hcap : s.WithinCapacity) (hbusy : s.phase ≠ .idle)
    (h : step s = .next t) : t.WithinCapacity := by
  have hbound := hcap.buffersBounded
  rcases step_busy_next hbusy h with ⟨hphase, rfl⟩ | ⟨hphase, -, -, rfl⟩ | ⟨-, -, rfl⟩ | ⟨hphase, rfl⟩ |
    ⟨hphase, hruns, rfl⟩ | ⟨hphase, -, -, rfl⟩ | ⟨-, rfl⟩
  · exact withinCapacity_of_encode (.inr rfl) (hcap.payload (.inl hphase)) ⟨hbound.rb, hbound.store⟩
  · refine withinCapacity_of_encode (.inr ((encByte_phase s).trans hphase)) ?_ ⟨?_, ?_⟩
    · rw [payloadFits, encByte_params, encByte_inp]; exact hcap.payload (.inr hphase)
    · rw [encByte_params, encByte_rb]; exact hbound.rb
    · rw [encByte_params, encByte_store]; exact hbound.store
  · exact withinCapacity_of_idle rfl ⟨hbound.rb, hbound.store⟩
  · exact withinCapacity_of_decode (.inr (.inl rfl)) (hcap.frame (.inl hphase)) ⟨fun _ _ => Nat.zero_le _, hbound.store⟩
  · have hfits : frameFits (decByte s) = true := by
      rw [frameFits, decByte_params, decByte_inp]; exact hcap.frame (.inr (.inl hphase))
    have hdec := (hinv.decoding hphase).decByte hruns
    refine withinCapacity_of_decode (.inr (.inl ((decByte_phase s).trans hphase))) hfits
      ⟨rb_within_of_shorter hfits hdec.rb_len_le, ?_⟩
    rw [decByte_params, decByte_store]
    exact hbound.store
  · exact withinCapacity_of_decode (.inr (.inr rfl)) (hcap.frame (.inr (.inl hphase))) ⟨hbound.rb, hbound.store⟩
  · exact withinCapacity_of_idle (decValidateEffect_phase s) hbound.decValidate

/-- A host operation stays within the capacities: DECODE is the validation of a scan that is shorter than its input. -/
theorem BuffersBounded.exec_op (h : BuffersBounded s) (op : OpCode) (hexec : exec (decodeOp op) s = .next t) :
    BuffersBounded t := by
  obtain ⟨-, ⟨-, -, rfl⟩ | ⟨-, -, rfl⟩ | ⟨-, hfits, rfl⟩ | ⟨-, rfl⟩⟩ := exec_op_next op hexec
  · rw [takeResult_foldBytes_eq]
    exact ⟨h.rb, h.store⟩
  · constructor
    · rw [encodeRun_params, encodeRun_rb]; exact h.rb
    · rw [encodeRun_params, encodeRun_store]; exact h.store
  · have hscan := rb_within_of_shorter (t := decodeRun s) hfits (rb_len_decodeRun_le s)
    rw [decodeRun_rb] at hscan
    rw [decodeRun_eq]
    exact BuffersBounded.decValidate (s := withScanRegs (scanned (bytesOf s .input)) s) ⟨hscan, h.store⟩
  · exact ⟨h.rb, h.store⟩

/-- A step of an idle instance stays within the capacities. -/
theorem withinCapacity_of_idle_step (hcap : s.WithinCapacity) (hidle : s.phase = .idle) (h : step s = .next t) :
    t.WithinCapacity := by
  have hbound := hcap.buffersBounded
  rcases step_idle_next hidle h with ⟨-, rfl⟩ | ⟨rest, -, rfl⟩ | ⟨op, input, rest, p, rfl, hstep⟩
  · exact hcap
  · exact withinCapacity_of_idle rfl ⟨fun _ _ => Nat.zero_le _, fun _ _ => Nat.zero_le _⟩
  · have hpresent : BuffersBounded (present input rest s) := ⟨hbound.rb, hbound.store⟩
    rcases hstep with ⟨-, hexec⟩ | ⟨-, ⟨-, hfits, rfl⟩ | ⟨-, hfits, rfl⟩⟩
    · exact withinCapacity_of_idle (exec_op_frame op hexec).1 (hpresent.exec_op op hexec)
    · rw [beginEncode_eq]
      exact withinCapacity_of_encode (.inl rfl) hfits ⟨hpresent.rb, hpresent.store⟩
    · exact withinCapacity_of_decode (.inl rfl) hfits ⟨hpresent.rb, hpresent.store⟩

/-- Settles O46: the reconstruction is shorter than an accepted input, and the message shorter than the reconstruction. -/
theorem stepStaysWithinCapacity : Obligations.StepStaysWithinCapacity := by
  intro s t hinv hcap h
  by_cases hidle : s.phase = .idle
  · exact withinCapacity_of_idle_step hcap hidle h
  · exact withinCapacity_of_busy_step hinv hcap hidle h

/-! ## A step always answers within capacity (rules R59, R62) -/

/-- Inside an operation the invariant enables a micro-step in every place. -/
theorem exists_busy_step (hinv : s.Inv) (hbusy : s.phase ≠ .idle) : ∃ t, step s = .next t := by
  cases hphase : s.phase with
  | idle => exact absurd hphase hbusy
  | encInit => exact ⟨_, step_encInit hphase⟩
  | encScan =>
    have henc := hinv.encoding hphase
    rcases henc.scan.lt_or_eq with hsi | hsi
    · exact ⟨_, step_encByte hphase hsi henc.codeHigh⟩
    · exact ⟨_, step_encFin hphase hsi⟩
  | decInit => exact ⟨_, step_decInit hphase⟩
  | decScan =>
    cases hterm : s.term with
    | true => exact ⟨_, step_decValidate (scanOver_iff.2 (.inr ⟨hphase, hterm⟩))⟩
    | false =>
      rcases (hinv.decoding hphase).scan.lt_or_eq with hfi | hfi
      · exact ⟨_, step_decByte hphase (scanRuns_iff.2 ⟨hterm, hfi⟩)⟩
      · exact ⟨_, step_decEoi hphase hterm hfi⟩
  | decDone => exact ⟨_, step_decValidate (scanOver_iff.2 (.inl hphase))⟩

/-- An idle instance begins an operation taken stepwise, or refuses it for its capacity. -/
theorem runStepped_of_idle (op : OpCode) (hphase : s.phase = .idle) :
    (∃ t, runStepped op s = .next t) ∨
      runStepped op s = .refused .capacityExceeded ∧ (payloadFits s = false ∨ frameFits s = false) := by
  rcases opCode_cases op with rfl | rfl | rfl | rfl
  · rw [runStepped_whole (.inl rfl)]
    exact exec_op_of_idle _ hphase
  · rw [runStepped_encode]
    cases hfits : payloadFits s with
    | true => exact .inl ⟨_, rfl⟩
    | false => exact .inr ⟨rfl, .inl rfl⟩
  · rw [runStepped_decode]
    cases hfits : frameFits s with
    | true => exact .inl ⟨_, rfl⟩
    | false => exact .inr ⟨rfl, .inr rfl⟩
  · rw [runStepped_whole (.inr rfl)]
    exact exec_op_of_idle _ hphase

/-- Settles O47: inside an operation the invariant enables the next micro-step, and an idle instance refuses nothing but an input
over capacity. -/
theorem stepAlwaysAnswersWithinCapacity : Obligations.StepAlwaysAnswersWithinCapacity := by
  intro s hinv
  by_cases hidle : s.phase = .idle
  · cases hhost : s.host with
    | nil => exact .inl ⟨s, step_of_no_item hidle hhost⟩
    | cons event tail =>
      cases event with
      | reset => exact .inl ⟨_, step_of_reset hidle hhost⟩
      | issue op input =>
        rw [step_of_issue hidle hhost]
        exact (exec_op_of_idle (s := present input tail s) op hidle).imp_right fun ⟨hrefused, hcap⟩ =>
          ⟨hrefused, hidle, op, input, tail, .inl rfl, hcap⟩
      | issueStepped op input =>
        rw [step_of_issueStepped hidle hhost]
        exact (runStepped_of_idle (s := present input tail s) op hidle).imp_right fun ⟨hrefused, hcap⟩ =>
          ⟨hrefused, hidle, op, input, tail, .inr rfl, hcap⟩
  · exact .inl (exists_busy_step hinv hidle)

end Sys2Proof.Machine
end

section
/-! PROOFS. An operation taken micro-step by micro-step ends in the state of the atomic operation (rules R16, R126, R150). -/

namespace Sys2Proof.Machine

open Sys2Proof

variable {s t : State}

theorem run_zero (s : State) : (Sys2Proof.core.run 0 s : Host.Outcome State Fault Refusal) = .next s := rfl

/-! ## ENCODE -/

/-- The micro-steps of ENCODE's scan are the passes of its loop: `CODE` stays in the range in which a source byte decodes. -/
theorem run_encLoop (n k : Nat) {a d : List Byte} (v : OutView s a d) (hphase : s.phase = .encScan) (hn : s.si + n ≤ xLen s) :
    (Sys2Proof.core.run (n + k) s : Host.Outcome State Fault Refusal) = Sys2Proof.core.run k (encLoop n s) := by
  induction n generalizing s a d with
  | zero => rw [Nat.zero_add]; rfl
  | succ n ih =>
    have hsi : s.si < xLen s := by omega
    have hcode : s.code.toNat ≤ 254 := by
      have := v.short
      rw [v.code_toNat]
      omega
    obtain ⟨a', d', v', -⟩ := v.byte
    have hx : xLen (encByte s) = xLen s := by rw [xLen, encByte_inp]; rfl
    have hsi' : (encByte s).si = s.si + 1 := by rw [encByte_frame]
    rw [Nat.add_right_comm, run_of_next _ (step_encByte hphase hsi hcode), encLoop, if_pos hsi]
    exact ih v' ((encByte_phase s).trans hphase) (by omega)

theorem encLoop_phase (n : Nat) (s : State) : (encLoop n s).phase = s.phase := by rw [encLoop_frame]
theorem encLoop_inp (n : Nat) (s : State) : (encLoop n s).inp = s.inp := by rw [encLoop_frame]

theorem xLen_beginEncode (s : State) : xLen (beginEncode s) = xLen s := by rw [beginEncode_eq]; rfl

/-- From the start of an accepted ENCODE its micro-steps reach the state of the whole operation. -/
theorem run_beginEncode (s : State) :
    (Sys2Proof.core.run (xLen s + 2) (beginEncode s) : Host.Outcome State Fault Refusal) = .next (encodeRun s) := by
  have hinit : step (beginEncode s) = .next (encInitEffect (beginEncode s)) := step_encInit rfl
  have hx : xLen (encInitEffect (beginEncode s)) = xLen s := xLen_beginEncode s
  have hview := encInit_view (beginEncode s)
  obtain ⟨-, -, -, hsi, -⟩ := encLoop_view (xLen s) hview (Nat.zero_le _) (by rw [hx]; exact Nat.le_add_left _ _)
  have hend : (encLoop (xLen s) (encInitEffect (beginEncode s))).si = xLen (encLoop (xLen s) (encInitEffect (beginEncode s))) := by
    rw [hsi, xLen, xLen, encLoop_inp]
  rw [run_of_next _ hinit, run_encLoop (xLen s) 1 hview rfl (by rw [hx]; exact (Nat.zero_add _).le),
    run_of_next 0 (step_encFin (encLoop_phase _ _) hend), run_zero]
  rfl

/-- Settles O48: the first step is the capacity check and the fold, and the micro-steps are the composition that the atomic operation
is defined as. -/
theorem encodeEqualsItsMicroSteps : Obligations.EncodeEqualsItsMicroSteps := by
  intro s input tail hphase hhost
  have hidle : (present input tail s).phase = .idle := hphase
  have hstep : step s = runStepped 0b01 (present input tail s) := step_of_issueStepped hphase hhost
  rw [runStepped_encode] at hstep
  cases hfits : payloadFits (present input tail s) with
  | true =>
    rw [hfits, if_pos rfl] at hstep
    exact (run_of_next _ hstep).trans ((run_beginEncode _).trans (exec_encode_of_idle hidle hfits).symm)
  | false =>
    rw [hfits] at hstep
    exact (run_of_refused _ hstep).trans (exec_encode_of_overlong hidle hfits).symm

/-! ## DECODE -/

/-- The micro-steps of DECODE's scan are the passes of its loop, as many as it makes. -/
theorem exists_run_decLoop (n : Nat) (hphase : s.phase = .decScan) :
    ∃ m, m ≤ n ∧ ∀ k,
      (Sys2Proof.core.run (m + k) s : Host.Outcome State Fault Refusal) = Sys2Proof.core.run k (decLoop n s) := by
  induction n generalizing s with
  | zero => exact ⟨0, le_rfl, fun k => by rw [Nat.zero_add]; rfl⟩
  | succ n ih =>
    rw [decLoop]
    split
    case isTrue hruns =>
      obtain ⟨m, hm, hrun⟩ := ih ((decByte_phase s).trans hphase)
      exact ⟨m + 1, Nat.succ_le_succ hm, fun k => by
        rw [Nat.add_right_comm, run_of_next _ (step_decByte hphase hruns), hrun]⟩
    case isFalse => exact ⟨0, Nat.zero_le _, fun k => by rw [Nat.zero_add]⟩

/-- With fuel for the bytes still to come the loop of DECODE goes on until the scan is over. -/
theorem scanRuns_decLoop (n : Nat) (s : State) (hn : s.inp.len ≤ s.fi + n) : scanRuns (decLoop n s) = false := by
  induction n generalizing s with
  | zero =>
    have hend : ¬ s.fi < s.inp.len := by omega
    simp [decLoop, scanRuns, hend]
  | succ n ih =>
    rw [decLoop]
    split
    case isTrue hruns => exact ih _ (by rw [decByte_inp, decByte_fi]; omega)
    case isFalse hruns => exact Bool.eq_false_iff.2 hruns

/-- The scan is ended by OVH.END or by one DEC.EOI, and the validation follows. -/
theorem exists_run_validate (hphase : s.phase = .decScan) (hinv : DecInv s) (hruns : scanRuns s = false) :
    ∃ m, m ≤ 2 ∧
      (Sys2Proof.core.run m s : Host.Outcome State Fault Refusal) = .next (decValidateEffect (endScan s)) := by
  cases hterm : s.term with
  | true =>
    have hstep := step_decValidate (scanOver_iff.2 (.inr ⟨hphase, hterm⟩))
    exact ⟨1, by omega, by rw [run_of_next 0 hstep, run_zero, endScan, if_pos hterm]⟩
  | false =>
    have hend : s.fi = s.inp.len := by
      have hnot : ¬ s.fi < s.inp.len := fun hlt => by simp [scanRuns_iff.2 ⟨hterm, hlt⟩] at hruns
      exact le_antisymm hinv.scan (Nat.le_of_not_lt hnot)
    have hstep : step (decEoiEffect s) = .next (decValidateEffect (decEoiEffect s)) :=
      step_decValidate (scanOver_iff.2 (.inl rfl))
    exact ⟨2, le_rfl, by
      rw [run_of_next 1 (step_decEoi hphase hterm hend), run_of_next 0 hstep, run_zero, endScan, hterm]; rfl⟩

/-- From the start of an accepted DECODE its micro-steps reach the state of the whole operation. -/
theorem exists_run_beginDecode (s : State) :
    ∃ m, m ≤ s.inp.len + 3 ∧
      (Sys2Proof.core.run m (beginDecode s) : Host.Outcome State Fault Refusal) = .next (decodeRun s) := by
  have hinit : step (beginDecode s) = .next (decInitEffect (beginDecode s)) := step_decInit rfl
  obtain ⟨m, hm, hrun⟩ := exists_run_decLoop (s := decInitEffect (beginDecode s)) s.inp.len rfl
  have hphase : (decLoop s.inp.len (decInitEffect (beginDecode s))).phase = .decScan := by rw [decodeScan_eq]
  obtain ⟨k, hk, hvalidate⟩ := exists_run_validate hphase ((decInv_decInitEffect _).decLoop _)
    (scanRuns_decLoop _ _ (by simp))
  refine ⟨m + k + 1, by omega, ?_⟩
  rw [run_of_next _ hinit, hrun, hvalidate]
  rfl

/-- Settles O49: the first step is the capacity check, and the micro-steps are the composition that the atomic operation is defined
as. -/
theorem decodeEqualsItsMicroSteps : Obligations.DecodeEqualsItsMicroSteps := by
  intro s input tail hphase hhost
  have hidle : (present input tail s).phase = .idle := hphase
  have hstep : step s = runStepped 0b10 (present input tail s) := step_of_issueStepped hphase hhost
  rw [runStepped_decode] at hstep
  cases hfits : frameFits (present input tail s) with
  | true =>
    rw [hfits, if_pos rfl] at hstep
    obtain ⟨m, hm, hrun⟩ := exists_run_beginDecode (present input tail s)
    rw [present_inp, Buffer.ofBytes_len] at hm
    exact ⟨m + 1, by omega, (run_of_next _ hstep).trans (hrun.trans (exec_decode_of_idle hidle hfits).symm)⟩
  | false =>
    rw [hfits] at hstep
    exact ⟨1, by omega, (run_of_refused 0 hstep).trans (exec_decode_of_overlong hidle hfits).symm⟩

end Sys2Proof.Machine
end

section
/-! PROOFS. Whole-machine rules: what writes each element (rules R21, R54), when the Store changes and what a GETMSG returns (rules
R61, R201), and what is never read (rules R42, R196). -/

namespace Sys2Proof.Machine

open Sys2Proof

variable {s t : State}

/-! ## The Store -/

/-- A message and its received checksum are the whole of `RB`. -/
theorem bytesOf_rb_eq_concat (hlen : s.rb.len ≠ 0) : bytesOf s .rb = receivedMessage s ++ [receivedChecksum s] := by
  have hsucc : s.rb.len - 1 + 1 = s.rb.len := by omega
  have := Buffer.firstBytes_succ .rb s.rb (s.rb.len - 1)
  rwa [hsucc] at this

/-- A validation leaves the Store, or puts there a message that with its fold is `RB` (rules R170, R171). -/
theorem decValidateEffect_store_cases (s : State) :
    (decValidateEffect s).store = s.store ∨
      (decValidateEffect s).ok = true ∧ (decValidateEffect s).phase = .idle ∧
        bytesOf (decValidateEffect s) .rb =
          bytesOf (decValidateEffect s) .store ++ [xorFold (bytesOf (decValidateEffect s) .store)] ∧
        (decValidateEffect s).store.len + 1 = (decValidateEffect s).rb.len := by
  by_cases hlen : s.rb.len = 0
  · rw [decValidateEffect_of_empty hlen]; exact .inl rfl
  · by_cases hsum : xorFold (receivedMessage s) = receivedChecksum s
    · rw [decValidateEffect_of_match hlen hsum]
      refine .inr ⟨rfl, rfl, ?_, ?_⟩
      · have hstore : (Buffer.ofBytes (receivedMessage s)).firstBytes .store (receivedMessage s).length = receivedMessage s :=
          Buffer.firstBytes_ofBytes .store (receivedMessage s)
        simp only [bytesOf, bufLen, buf_rb, buf_store, Buffer.ofBytes_len, hstore, hsum]
        exact bytesOf_rb_eq_concat hlen
      · change (receivedMessage s).length + 1 = s.rb.len
        rw [length_receivedMessage]
        omega
    · rw [decValidateEffect_of_mismatch hlen hsum]; exact .inl rfl

/-- Settles O38: only the two steps that validate, DEC.VALIDATE and a whole DECODE, and RESET write the Store. -/
theorem storeChangesOnlyByValidationOrReset : Obligations.StoreChangesOnlyByValidationOrReset := by
  intro s t h
  by_cases hidle : s.phase = .idle
  · rcases step_idle_next hidle h with ⟨-, rfl⟩ | ⟨rest, hhost, rfl⟩ | ⟨op, input, rest, p, rfl, hstep⟩
    · exact .inl rfl
    · exact .inr (.inr ⟨hidle, ⟨rest, hhost⟩, rfl⟩)
    · rcases hstep with ⟨-, hexec⟩ | ⟨-, ⟨-, -, rfl⟩ | ⟨-, -, rfl⟩⟩
      · obtain ⟨-, ⟨-, -, rfl⟩ | ⟨-, -, rfl⟩ | ⟨-, -, rfl⟩ | ⟨-, rfl⟩⟩ := exec_op_next op hexec
        · exact .inl (by simp)
        · exact .inl (encodeRun_store _)
        · rw [decodeRun_eq]
          exact (decValidateEffect_store_cases _).imp_right .inl
        · exact .inl rfl
      · rw [beginEncode_eq]; exact .inl rfl
      · exact .inl rfl
  · rcases step_busy_next hidle h with ⟨-, rfl⟩ | ⟨-, -, -, rfl⟩ | ⟨-, -, rfl⟩ | ⟨-, rfl⟩ | ⟨-, -, rfl⟩ | ⟨-, -, -, rfl⟩ |
      ⟨-, rfl⟩
    · exact .inl rfl
    · exact .inl (encByte_store s)
    · exact .inl rfl
    · exact .inl rfl
    · exact .inl (decByte_store s)
    · exact .inl rfl
    · exact (decValidateEffect_store_cases s).imp_right .inl

/-! ## What a GETMSG returns -/

/-- A whole operation that is no DECODE with an accepted input leaves the Store. -/
theorem exec_op_store (op : OpCode) (hkeeps : op = 0b10 → accepts (reconstruct (bytesOf s .input)) = false)
    (h : exec (decodeOp op) s = .next t) : t.store = s.store := by
  obtain ⟨-, ⟨-, -, rfl⟩ | ⟨-, -, rfl⟩ | ⟨rfl, -, rfl⟩ | ⟨-, rfl⟩⟩ := exec_op_next op h
  · simp
  · exact encodeRun_store s
  · exact decodeRun_store_of_rejects (hkeeps rfl)
  · rfl

/-- An event that leaves the Store alone is an accepted operation, and the host goes on to its next item. -/
theorem step_of_keepsStore {e : HostEvent} {tail : List HostEvent} (hphase : s.phase = .idle) (hhost : s.host = e :: tail)
    (hkeeps : keepsStore e = true) (hfits : eventFits s.params e = true) :
    ∃ t, step s = .next t ∧ t.phase = .idle ∧ t.params = s.params ∧ t.host = tail ∧ t.store = s.store := by
  cases e with
  | reset => cases hkeeps
  | issueStepped op f => cases hkeeps
  | issue op f =>
    obtain ⟨hpayload, hframe⟩ := Bool.and_eq_true_iff.1 hfits
    obtain ⟨t, ht⟩ := exists_exec_op_next (s := present f tail s) op hphase hpayload hframe
    obtain ⟨hidle, hparams, hhost', -⟩ := exec_op_frame op ht
    refine ⟨t, (step_of_issue hphase hhost).trans ht, hidle, hparams, hhost', exec_op_store (s := present f tail s) op ?_ ht⟩
    rintro rfl
    rw [bytesOf_input_present]
    simpa [keepsStore] using hkeeps

/-- Settles O39, by induction on the events before the GETMSG. -/
theorem getmsgReturnsTheStoreUnchanged : Obligations.GetmsgReturnsTheStoreUnchanged := by
  intro s events input tail hphase hhost hevents
  induction events generalizing s with
  | nil =>
    have hget : step s = .next (copyStoreOut (present input tail s)) :=
      (step_of_issue hphase hhost).trans (exec_getmsg_of_idle (s := present input tail s) hphase)
    exact ⟨copyStoreOut (present input tail s), (run_of_next 0 hget).trans (run_zero _), bytesOf_out_copyStoreOut _,
      out_len_copyStoreOut _, rfl, rfl⟩
  | cons e events ih =>
    obtain ⟨hkeeps, hfits⟩ := hevents e (by simp)
    obtain ⟨u, hstep, hidle, hparams, hhost', hstore⟩ := step_of_keepsStore hphase hhost hkeeps hfits
    obtain ⟨t, hrun, hout, hlen, hstore', hhost''⟩ := ih u hidle hhost' fun e' he' => by
      rw [hparams]
      exact hevents e' (List.mem_cons_of_mem e he')
    have hsame : bytesOf u .store = bytesOf s .store := by rw [bytesOf, bufLen, buf_store, hstore]; rfl
    exact ⟨t, (run_of_next _ hstep).trans hrun, hout.trans hsame, hlen.trans (congrArg Buffer.len hstore),
      hstore'.trans hstore, hhost''⟩

/-- Settles O56: the accepted DECODE puts the message into the Store, and from there a GETMSG returns it. -/
theorem getmsgReturnsTheMessageOfTheLastSuccess : Obligations.GetmsgReturnsTheMessageOfTheLastSuccess := by
  intro s f events input tail hphase hhost hfits haccepts hevents
  have hinput : bytesOf (present f (events ++ .issue 0b11#2 input :: tail) s) .input = f := bytesOf_input_present f _ s
  generalize hp : present f (events ++ .issue 0b11#2 input :: tail) s = p at hinput
  have hidle : p.phase = .idle := by rw [← hp]; exact hphase
  have hfits' : frameFits p = true := by rw [← hp]; exact hfits
  have hparams : p.params = s.params := by rw [← hp]; rfl
  have hhost' : p.host = events ++ .issue 0b11#2 input :: tail := by rw [← hp]; rfl
  have hstep : step s = .next (decodeRun p) := by
    rw [step_of_issue hphase hhost, hp]
    exact exec_decode_of_idle hidle hfits'
  rw [← hinput] at haccepts ⊢
  obtain ⟨t, hrun, hout, hlen, hstore, hhost''⟩ := getmsgReturnsTheStoreUnchanged (decodeRun p) events input tail
    (decodeRun_phase p) ((decodeRun_host p).trans hhost') (by rw [decodeRun_params, hparams]; exact hevents)
  refine ⟨decodeRun p, t, hstep, (decodeRun_ok p).trans haccepts, hrun, hout.trans (bytesOf_store_decodeRun haccepts), ?_,
    hstore, hhost''⟩
  rw [hlen, store_len_decodeRun haccepts, rb_len_decodeRun]

/-! ## The writers of each element -/

/-- A guarded micro-step answers with its effect. -/
theorem eq_of_guarded {c : Prop} [Decidable c] {u : State} {r : Refusal}
    (h : (if c then .next u else .refused r : Host.Outcome State Fault Refusal) = .next t) : t = u :=
  (guarded_next_iff.1 h).2

/-- Settles O40: each instruction's effect is a record update of the elements it writes. -/
theorem eachElementHasOnlyItsWriters : Obligations.EachElementHasOnlyItsWriters := by
  intro i s t h
  cases i with
  | checksum =>
    obtain ⟨-, -, rfl⟩ := exec_checksum_next h
    simp
  | encode =>
    obtain ⟨-, -, rfl⟩ := exec_encode_next h
    rw [encodeRun_frame]
    simp
  | decode =>
    obtain ⟨-, -, rfl⟩ := exec_decode_next h
    rw [decodeRun_frame]
    simp
  | getmsg =>
    obtain ⟨-, rfl⟩ := exec_getmsg_next h
    simp
  | decValidate =>
    obtain rfl := eq_of_guarded h
    rw [decValidateEffect_frame]
    simp
  | ovhFull =>
    obtain rfl := eq_of_guarded h
    simp [ovhFullEffect, Instr.format]
  | ovhBlk l =>
    obtain rfl := eq_of_guarded h
    simp [ovhBlkEffect, Instr.format]
  | encZero =>
    obtain rfl := eq_of_guarded h
    simp [encZeroEffect, Instr.format]
  | encData b =>
    obtain rfl := eq_of_guarded h
    simp [encDataEffect, Instr.format]
  | encDataFull b =>
    obtain rfl := eq_of_guarded h
    simp [encDataFullEffect, Instr.format]
  | ovhEnd =>
    obtain rfl := eq_of_guarded h
    simp [Instr.format]
  | dataCopy b =>
    obtain rfl := eq_of_guarded h
    simp [Instr.format]
  | encInit =>
    obtain rfl := eq_of_guarded h
    simp
  | encFin =>
    obtain rfl := eq_of_guarded h
    simp
  | decInit =>
    obtain rfl := eq_of_guarded h
    simp
  | decEoi =>
    obtain rfl := eq_of_guarded h
    simp

/-! ## What the working registers held (rule R42) -/

theorem visible_eq_of (hout : bytesOf t .out = bytesOf s .out) (hlen : t.out.len = s.out.len) (hok : t.ok = s.ok)
    (hres : t.res = s.res) (hstore : t.store = s.store) : visible t = visible s := by
  have hbytes : bytesOf t .store = bytesOf s .store := by rw [bytesOf, bufLen, buf_store, hstore]; rfl
  simp only [visible, hout, hlen, hok, hres, hstore, hbytes]

theorem visible_encodeRun (w s : State) : visible (encodeRun (withWorking w s)) = visible (encodeRun s) :=
  visible_eq_of (by rw [bytesOf_out_encodeRun, bytesOf_out_encodeRun]; rfl) (by rw [out_len_encodeRun, out_len_encodeRun]; rfl)
    (by rw [encodeRun_ok, encodeRun_ok]; rfl) (by rw [encodeRun_res, encodeRun_res]; rfl)
    (by rw [encodeRun_store, encodeRun_store]; rfl)

theorem visible_decodeRun (w s : State) : visible (decodeRun (withWorking w s)) = visible (decodeRun s) :=
  visible_eq_of (by rw [bytesOf, bytesOf, bufLen, bufLen, buf_out, buf_out, decodeRun_out, decodeRun_out]; rfl)
    (by rw [decodeRun_out, decodeRun_out]; rfl) (by rw [decodeRun_ok, decodeRun_ok]; rfl)
    (by rw [decodeRun_res, decodeRun_res]; rfl) (by rw [decodeRun_store, decodeRun_store]; rfl)

/-- Settles O41: the four operations compute what the host sees from the input and the Store. -/
theorem hostOperationsIgnoreLeftoverWorkingState : Obligations.HostOperationsIgnoreLeftoverWorkingState := by
  intro w s i hop
  by_cases hphase : s.phase = .idle
  · have hphase' : (withWorking w s).phase = .idle := hphase
    rcases isHostOp_iff.1 hop with rfl | rfl | rfl | rfl
    · cases hfits : payloadFits s with
      | true =>
        rw [exec_checksum_of_idle hphase' hfits, exec_checksum_of_idle hphase hfits, takeResult_foldBytes_eq,
          takeResult_foldBytes_eq]
        rfl
      | false => rw [exec_checksum_of_overlong hphase' hfits, exec_checksum_of_overlong hphase hfits]
    · cases hfits : payloadFits s with
      | true =>
        rw [exec_encode_of_idle hphase' hfits, exec_encode_of_idle hphase hfits]
        exact congrArg some (visible_encodeRun w s)
      | false => rw [exec_encode_of_overlong hphase' hfits, exec_encode_of_overlong hphase hfits]
    · cases hfits : frameFits s with
      | true =>
        rw [exec_decode_of_idle hphase' hfits, exec_decode_of_idle hphase hfits]
        exact congrArg some (visible_decodeRun w s)
      | false => rw [exec_decode_of_overlong hphase' hfits, exec_decode_of_overlong hphase hfits]
    · rw [exec_getmsg_of_idle hphase', exec_getmsg_of_idle hphase]
      rfl
  · have hphase' : (withWorking w s).phase ≠ .idle := hphase
    rw [exec_hostOp_of_busy hop hphase', exec_hostOp_of_busy hop hphase]

end Sys2Proof.Machine
end

section
/-! PROOFS. No step reads the advisory frame size or the index width (rules R8, R196): every effect, and so every step, commutes with
their replacement. -/

namespace Sys2Proof.Machine

open Sys2Proof

variable (maxFrame width : Option Nat) (s : State)

/-! ## The effects -/

theorem beginEncode_withAdvisory :
    beginEncode (withAdvisory maxFrame width s) = withAdvisory maxFrame width (beginEncode s) := by
  rw [beginEncode_eq, beginEncode_eq]; rfl

theorem encByte_withAdvisory : encByte (withAdvisory maxFrame width s) = withAdvisory maxFrame width (encByte s) := by
  unfold encByte
  rw [apply_ite (withAdvisory maxFrame width), apply_ite (withAdvisory maxFrame width)]
  rfl

theorem encLoop_withAdvisory (n : Nat) :
    encLoop n (withAdvisory maxFrame width s) = withAdvisory maxFrame width (encLoop n s) := by
  induction n generalizing s with
  | zero => rfl
  | succ n ih =>
    rw [encLoop, encLoop, encByte_withAdvisory, ih, apply_ite (withAdvisory maxFrame width)]
    rfl

theorem encodeRun_withAdvisory : encodeRun (withAdvisory maxFrame width s) = withAdvisory maxFrame width (encodeRun s) := by
  have hinit : encInitEffect (withAdvisory maxFrame width (beginEncode s)) =
      withAdvisory maxFrame width (encInitEffect (beginEncode s)) := rfl
  have hx : xLen (withAdvisory maxFrame width s) = xLen s := rfl
  rw [encodeRun, beginEncode_withAdvisory, hinit, hx, encLoop_withAdvisory]
  rfl

theorem openFrameBlock_withAdvisory (l : Byte) :
    openFrameBlock l (withAdvisory maxFrame width s) = withAdvisory maxFrame width (openFrameBlock l s) := by
  rw [openFrameBlock_eq, openFrameBlock_eq]; rfl

theorem decValidateEffect_withAdvisory :
    decValidateEffect (withAdvisory maxFrame width s) = withAdvisory maxFrame width (decValidateEffect s) := by
  by_cases hlen : s.rb.len = 0
  · rw [decValidateEffect_of_empty hlen]
    exact decValidateEffect_of_empty hlen
  · by_cases hsum : xorFold (receivedMessage s) = receivedChecksum s
    · rw [decValidateEffect_of_match hlen hsum]
      exact decValidateEffect_of_match hlen hsum
    · rw [decValidateEffect_of_mismatch hlen hsum]
      exact decValidateEffect_of_mismatch hlen hsum

theorem decodeRun_withAdvisory : decodeRun (withAdvisory maxFrame width s) = withAdvisory maxFrame width (decodeRun s) := by
  rw [decodeRun_eq, decodeRun_eq, ← decValidateEffect_withAdvisory]; rfl

theorem checksum_withAdvisory :
    takeResult (foldBytes (bytesOf (withAdvisory maxFrame width s) .input) (withAdvisory maxFrame width s)) =
      withAdvisory maxFrame width (takeResult (foldBytes (bytesOf s .input) s)) := by
  rw [takeResult_foldBytes_eq, takeResult_foldBytes_eq]; rfl

/-! ## The instructions -/

theorem mapOutcome_guarded {c : Prop} [Decidable c] (f : State → State) (t : State) (r : Refusal) :
    mapOutcome f (if c then .next t else .refused r) = if c then .next (f t) else .refused r := by
  split <;> rfl

/-- A guarded instruction whose effect commutes with a function of the state, in a state in which the guard is the same. -/
theorem guarded_eq_mapOutcome {c : Prop} [Decidable c] {f : State → State} {t u : State} {r : Refusal} (h : u = f t) :
    (if c then .next u else .refused r : Host.Outcome State Fault Refusal) =
      mapOutcome f (if c then .next t else .refused r) := by
  rw [h, mapOutcome_guarded]

/-- The same for a host operation, which tests first whether another is in progress. -/
theorem operation_eq_mapOutcome {b c : Prop} [Decidable b] [Decidable c] {f : State → State} {t u : State} {p r : Refusal}
    (h : u = f t) :
    (if b then .refused p else if c then .next u else .refused r : Host.Outcome State Fault Refusal) =
      mapOutcome f (if b then .refused p else if c then .next t else .refused r) := by
  split
  · rfl
  · exact guarded_eq_mapOutcome h

theorem exec_withAdvisory (i : Instr) :
    exec i (withAdvisory maxFrame width s) = mapOutcome (withAdvisory maxFrame width) (exec i s) := by
  cases i with
  | checksum => exact operation_eq_mapOutcome (checksum_withAdvisory maxFrame width s)
  | encode => exact operation_eq_mapOutcome (encodeRun_withAdvisory maxFrame width s)
  | decode => exact operation_eq_mapOutcome (decodeRun_withAdvisory maxFrame width s)
  | getmsg =>
    by_cases hphase : s.phase = .idle
    · rw [exec_getmsg_of_idle hphase]
      exact exec_getmsg_of_idle hphase
    · rw [exec_hostOp_of_busy rfl hphase]
      exact exec_hostOp_of_busy rfl hphase
  | ovhEnd => exact guarded_eq_mapOutcome rfl
  | ovhFull => exact guarded_eq_mapOutcome (openFrameBlock_withAdvisory maxFrame width s Config.ovhFull)
  | ovhBlk l => exact guarded_eq_mapOutcome (openFrameBlock_withAdvisory maxFrame width s l)
  | dataCopy b => exact guarded_eq_mapOutcome rfl
  | encZero => exact guarded_eq_mapOutcome rfl
  | encData b => exact guarded_eq_mapOutcome rfl
  | encDataFull b => exact guarded_eq_mapOutcome rfl
  | encInit => exact guarded_eq_mapOutcome rfl
  | encFin => exact guarded_eq_mapOutcome rfl
  | decInit => exact guarded_eq_mapOutcome rfl
  | decEoi => exact guarded_eq_mapOutcome rfl
  | decValidate => exact guarded_eq_mapOutcome (decValidateEffect_withAdvisory maxFrame width s)

/-! ## The step -/

theorem runDecoded_withAdvisory (ctx : Context) (bytes : List Byte) :
    runDecoded ctx bytes (withAdvisory maxFrame width s) =
      mapOutcome (withAdvisory maxFrame width) (runDecoded ctx bytes s) := by
  unfold runDecoded
  split
  · exact exec_withAdvisory maxFrame width s _
  · rfl

theorem runStepped_withAdvisory (op : OpCode) :
    runStepped op (withAdvisory maxFrame width s) = mapOutcome (withAdvisory maxFrame width) (runStepped op s) := by
  rcases opCode_cases op with rfl | rfl | rfl | rfl
  · rw [runStepped_whole (.inl rfl), runStepped_whole (.inl rfl)]
    exact exec_withAdvisory maxFrame width s _
  · exact guarded_eq_mapOutcome (beginEncode_withAdvisory maxFrame width s)
  · exact guarded_eq_mapOutcome rfl
  · rw [runStepped_whole (.inr rfl), runStepped_whole (.inr rfl)]
    exact exec_withAdvisory maxFrame width s _

theorem step_of_busy {s : State} (hphase : s.phase ≠ .idle) : step s = runDecoded (nextContext s) (nextBytes s) s :=
  if_pos (busy_eq_true_iff.2 hphase)

/-- Settles O42: what the step selects does not depend on the two parameters, and what it runs commutes with their replacement. -/
theorem advisoryParametersAreNeverRead : Obligations.AdvisoryParametersAreNeverRead := by
  intro s maxFrame width
  by_cases hphase : s.phase = .idle
  · have hphase' : (withAdvisory maxFrame width s).phase = .idle := hphase
    cases hhost : s.host with
    | nil =>
      rw [step_of_no_item hphase hhost]
      exact step_of_no_item hphase' hhost
    | cons event tail =>
      cases event with
      | reset =>
        rw [step_of_reset hphase hhost]
        exact step_of_reset hphase' hhost
      | issue op input =>
        rw [step_of_issue hphase hhost, ← exec_withAdvisory]
        exact step_of_issue hphase' hhost
      | issueStepped op input =>
        rw [step_of_issueStepped hphase hhost, ← runStepped_withAdvisory]
        exact step_of_issueStepped hphase' hhost
  · have hphase' : (withAdvisory maxFrame width s).phase ≠ .idle := hphase
    rw [step_of_busy hphase, ← runDecoded_withAdvisory]
    exact step_of_busy hphase'

end Sys2Proof.Machine
end
